-- ==== Sys2Proof/Word.lean ====
section
/-! DEFINITION. The word types of the block: a byte of the line or of a host buffer (spec/00_scope.md R12), the 32-bit
words of the host command port (spec/10_state.md R35), and the 7-bit device address (spec/20_memory.md R54). -/

namespace Sys2Proof

/-- A byte: 8 bits, unsigned, bit 7 most significant (spec/00_scope.md R12). -/
abbrev Byte := BitVec 8

/-- A word of the host command port, `CMD` or `STATUS` (spec/10_state.md R35). -/
abbrev Word := BitVec 32

/-- A 7-bit device address (spec/20_memory.md R54). -/
abbrev Addr := BitVec 7

end Sys2Proof
end

