-- ==== Sys2Proof/Syntax.lean ====
section
/-! DEFINITION. The instructions: one constructor per row of spec/opcode_table.json (spec/30_encoding.md R107). Five host
commands, the five symbols a transmitter puts on the line, and the two kinds of frame a receiver judges. -/

namespace Sys2Proof

/-- The rows of the opcode table (spec/30_encoding.md R107). -/
inductive Instr where
  /-- `INIT` (spec/43_driver_commands.md R160). -/
  | cmdInit
  /-- `OPEN mode` (spec/43_driver_commands.md R162). -/
  | cmdOpen (mode : Byte)
  /-- `CLOSE` (spec/43_driver_commands.md R164). -/
  | cmdClose
  /-- `READ max_len` (spec/43_driver_commands.md R166). -/
  | cmdRead (maxLen : Byte)
  /-- `WRITE addr, dir, len` with payload `TXBUF[0..len-1]` (spec/43_driver_commands.md R168). -/
  | cmdWrite (addr : Addr) (dir : BitVec 1) (len : Byte)
  /-- The symbol `SELECT`: the first half of EmitPreamble (spec/42_frame_transport.md R136). -/
  | symSelect
  /-- The symbol `START`: the second half of EmitPreamble (spec/42_frame_transport.md R136). -/
  | symStart
  /-- The symbol `BIT0`: EncodeBit0 (spec/41_bit_codec.md R121). -/
  | symBit0
  /-- The symbol `BIT1`: EncodeBit1 (spec/41_bit_codec.md R122). -/
  | symBit1
  /-- The symbol `STOP`: EmitStop (spec/42_frame_transport.md R137). -/
  | symStop
  /-- A received frame whose header is `aaaaaaa0`, a read request (spec/42_frame_transport.md R150). -/
  | frameRdreq (addr : Addr)
  /-- A received frame whose header is `aaaaaaa1`, a data frame (spec/42_frame_transport.md R151). -/
  | frameData (addr : Addr)
deriving DecidableEq, Repr

end Sys2Proof
end

