-- ==== Sys2Proof/WellFormed.lean ====
section
/-! DEFINITION. Which terms of `Instr` are instructions. The one check an operand can fail is the payload length of WRITE:
`len` is in 0 to 32 and 33 to 255 is reserved (spec/30_encoding.md R100, R102). Every other operand is legal at every
value of its field (R97, R99, R88). -/

namespace Sys2Proof

/-- The well-formed instructions (spec/30_encoding.md R96 to R102). -/
def Instr.wf : Instr → Bool
  | .cmdInit => true
  | .cmdOpen _ => true
  | .cmdClose => true
  | .cmdRead _ => true
  | .cmdWrite _ _ len => decide (len.toNat ≤ 32)
  | .symSelect => true
  | .symStart => true
  | .symBit0 => true
  | .symBit1 => true
  | .symStop => true
  | .frameRdreq _ => true
  | .frameData _ => true

end Sys2Proof
end

