-- ==== Sys2Proof/Decode.lean ====
section
/-! DEFINITION. The three formats of spec/30_encoding.md R107: the 32-bit command word (R95 to R100), the line symbol, a
pattern of one character per bit period (R80), and the 8-bit header of a frame (R88, R91). Each has a total decoder that
rejects by name, and an encoder written from the same rules. -/

namespace Sys2Proof

/-- An instruction as the hardware holds it, in one of the three formats of the table (spec/30_encoding.md R107). -/
inductive CodeWord where
  /-- Format CMD: a command word. -/
  | cmd (w : Word)
  /-- Format SYM: one Boolean per bit period, earliest first, `false` low and `true` high. -/
  | sym (pattern : List Bool)
  /-- Format HDR: a header byte. -/
  | hdr (b : Byte)
deriving DecidableEq, Repr

/-- Why a word is no instruction. -/
inductive DecodeError where
  /-- `OP` is not in 0x01 to 0x05 (spec/30_encoding.md R102). -/
  | reservedOp (op : Byte)
  /-- A must-be-zero field is not zero (spec/30_encoding.md R102). -/
  | mustBeZero (w : Word)
  /-- WRITE with `len > 32` (spec/30_encoding.md R102). -/
  | payloadTooLong (len : Byte)
  /-- A pattern that is none of the five symbols of spec/30_encoding.md R80. -/
  | noSymbol (pattern : List Bool)
deriving DecidableEq, Repr

/-! ## Command words -/

/-- `OP`, bits 31:24 (spec/30_encoding.md R95). -/
def fieldOp (w : Word) : Byte := w.extractLsb' 24 8

/-- `A`, bits 23:16 (spec/30_encoding.md R95). -/
def fieldA (w : Word) : Byte := w.extractLsb' 16 8

/-- `B[7:1] = addr`, bits 15:9 of the word (spec/30_encoding.md R95). -/
def fieldAddr (w : Word) : Addr := w.extractLsb' 9 7

/-- `B[0] = dir`, bit 8 of the word (spec/30_encoding.md R95). -/
def fieldDir (w : Word) : BitVec 1 := w.extractLsb' 8 1

/-- `B`, bits 15:8 (spec/30_encoding.md R95). -/
def fieldB (w : Word) : Byte := w.extractLsb' 8 8

/-- The reserved field, bits 7:0 (spec/30_encoding.md R95). -/
def fieldZ (w : Word) : Byte := w.extractLsb' 0 8

/-- The command word laid out from its fields (spec/30_encoding.md R95). -/
def cmdWord (op a : Byte) (addr : Addr) (dir : BitVec 1) : Word :=
  op ++ a ++ (addr ++ dir) ++ 0#8

/-- The decoder of command words (spec/30_encoding.md R95 to R102). -/
def decodeCmd (w : Word) : Except DecodeError Instr :=
  if fieldOp w = 0x01 then
    if fieldA w = 0 ∧ fieldB w = 0 ∧ fieldZ w = 0 then .ok .cmdInit else .error (.mustBeZero w)
  else if fieldOp w = 0x02 then
    if fieldB w = 0 ∧ fieldZ w = 0 then .ok (.cmdOpen (fieldA w)) else .error (.mustBeZero w)
  else if fieldOp w = 0x03 then
    if fieldA w = 0 ∧ fieldB w = 0 ∧ fieldZ w = 0 then .ok .cmdClose else .error (.mustBeZero w)
  else if fieldOp w = 0x04 then
    if fieldB w = 0 ∧ fieldZ w = 0 then .ok (.cmdRead (fieldA w)) else .error (.mustBeZero w)
  else if fieldOp w = 0x05 then
    if fieldZ w = 0 then
      if (fieldA w).toNat ≤ 32 then .ok (.cmdWrite (fieldAddr w) (fieldDir w) (fieldA w))
      else .error (.payloadTooLong (fieldA w))
    else .error (.mustBeZero w)
  else .error (.reservedOp (fieldOp w))

/-- A CMD row of the opcode table: a word is of the row when `(CMD & mask) == match` (spec/30_encoding.md R107). -/
structure CmdRow where
  mtch : Word
  mask : Word
deriving DecidableEq, Repr

/-- The five CMD rows of the table, in its order (spec/30_encoding.md R107). -/
def cmdRows : List CmdRow :=
  [ ⟨0x01000000, 0xFFFFFFFF⟩, ⟨0x02000000, 0xFF00FFFF⟩, ⟨0x03000000, 0xFFFFFFFF⟩,
    ⟨0x04000000, 0xFF00FFFF⟩, ⟨0x05000000, 0xFF0000FF⟩ ]

/-- The row test of spec/30_encoding.md R107. -/
def CmdRow.matches (r : CmdRow) (w : Word) : Bool := w &&& r.mask == r.mtch

/-- A reserved command word by the table: it matches no row, or the WRITE row with `len > 32` (spec/30_encoding.md
R107). -/
def reservedByTable (w : Word) : Bool :=
  !(cmdRows.any (·.matches w)) || ((⟨0x05000000, 0xFF0000FF⟩ : CmdRow).matches w && decide (32 < (fieldA w).toNat))

/-! ## Line symbols -/

/-- `SELECT`: 27 lows (spec/30_encoding.md R80). -/
def patternSelect : List Bool := List.replicate 27 false

/-- `START`: `111` (spec/30_encoding.md R80). -/
def patternStart : List Bool := [true, true, true]

/-- `BIT0`: `01` (spec/30_encoding.md R80). -/
def patternBit0 : List Bool := [false, true]

/-- `BIT1`: `011` (spec/30_encoding.md R80). -/
def patternBit1 : List Bool := [false, true, true]

/-- `STOP`: `0111` (spec/30_encoding.md R80). -/
def patternStop : List Bool := [false, true, true, true]

/-- The decoder of line symbols (spec/30_encoding.md R80). -/
def decodeSym (p : List Bool) : Except DecodeError Instr :=
  if p = patternSelect then .ok .symSelect
  else if p = patternStart then .ok .symStart
  else if p = patternBit0 then .ok .symBit0
  else if p = patternBit1 then .ok .symBit1
  else if p = patternStop then .ok .symStop
  else .error (.noSymbol p)

/-! ## Headers -/

/-- `address = header >> 1`, bits 7:1 (spec/30_encoding.md R88). -/
def headerAddr (b : Byte) : Addr := b.extractLsb' 1 7

/-- `direction`, bit 0 (spec/30_encoding.md R88). -/
def headerDir (b : Byte) : BitVec 1 := b.extractLsb' 0 1

/-- `header = (address << 1) | direction` (spec/30_encoding.md R88). -/
def headerByte (a : Addr) (d : BitVec 1) : Byte := a ++ d

/-- The decoder of header bytes: every byte is a legal header, and bit 0 alone tells the two kinds of frame apart
(spec/30_encoding.md R88, R91). -/
def decodeHdr (b : Byte) : Instr :=
  if headerDir b = 0 then .frameRdreq (headerAddr b) else .frameData (headerAddr b)

/-! ## The whole table -/

/-- The decoder over the three formats. -/
def decode : CodeWord → Except DecodeError Instr
  | .cmd w => decodeCmd w
  | .sym p => decodeSym p
  | .hdr b => .ok (decodeHdr b)

/-- The encoder (spec/30_encoding.md R80, R88, R96 to R100). -/
def encode : Instr → CodeWord
  | .cmdInit => .cmd (cmdWord 0x01 0 0 0)
  | .cmdOpen mode => .cmd (cmdWord 0x02 mode 0 0)
  | .cmdClose => .cmd (cmdWord 0x03 0 0 0)
  | .cmdRead maxLen => .cmd (cmdWord 0x04 maxLen 0 0)
  | .cmdWrite addr dir len => .cmd (cmdWord 0x05 len addr dir)
  | .symSelect => .sym patternSelect
  | .symStart => .sym patternStart
  | .symBit0 => .sym patternBit0
  | .symBit1 => .sym patternBit1
  | .symStop => .sym patternStop
  | .frameRdreq a => .hdr (headerByte a 0)
  | .frameData a => .hdr (headerByte a 1)

/-- The pattern that a table row of `n` characters writes as the number `w`: the row's first character, the earliest bit
period, is the most significant bit, as the first character of an HDR row is bit 7 (DESIGN CHOICE,
notes/assumptions/8.md). -/
def patternOf : Nat → Nat → List Bool
  | 0, _ => []
  | n + 1, w => w.testBit n :: patternOf n w

/-- The code word that a table row of `nbits` bits stands for: 32 bits are a command word, 8 bits a header byte, any other
number a line symbol. `none` where `w` has a bit above the row's. -/
def tableCodeWord (nbits w : Nat) : Option CodeWord :=
  if w < 2 ^ nbits then
    if nbits = 32 then some (.cmd (BitVec.ofNat 32 w))
    else if nbits = 8 then some (.hdr (BitVec.ofNat 8 w))
    else some (.sym (patternOf nbits w))
  else none

/-- The instruction the decoder reads from a table row's bits. -/
def decodeTableWord (nbits w : Nat) : Option Instr :=
  match tableCodeWord nbits w with
  | none => none
  | some c =>
    match decode c with
    | .ok i => some i
    | .error _ => none

end Sys2Proof
end

