-- ==== Sys2Proof/Config.lean ====
section
/-! DEFINITION. What is fixed for one node when it is built (spec/00_scope.md R8, R9; spec/10_state.md R20, R21), the
reference configuration of the spec, and the free values: what the spec leaves unspecified. A free value has no body, so
a claim about it holds whatever it is. -/

namespace Sys2Proof

/-- Which side of the protocol a node plays (spec/00_scope.md R8; spec/60_exceptions.md R195). -/
inductive Role where
  | master
  | slave
deriving DecidableEq, Repr

/-- The configuration record `cfg` of a node (spec/10_state.md R20, R21): supplied at construction, never changed. -/
structure NodeConfig where
  /-- `bit_period`, in microseconds. -/
  bitPeriod : Nat
  /-- `role`. -/
  role : Role
  /-- `own_address`; unused by a Master. -/
  ownAddress : Addr
  /-- `T_TIMEOUT`, in microseconds. -/
  tTimeout : Nat
  /-- `SELECT_MIN_X10`, ten times the select minimum in bit periods. -/
  selectMinX10 : Nat
deriving DecidableEq, Repr

/-- The configuration of `Sys2Proof.Machine.State.reset`: the reference values of spec/00_scope.md R9 (`bit_period` 33,
`T_TIMEOUT` 100000, `SELECT_MIN_X10` 216) on a Slave with `own_address` 1, the Slave of the spec's scenarios
(spec/95_test_vectors.md V1, V2). The role and the address are a DESIGN CHOICE (notes/assumptions/1.md). -/
def NodeConfig.reference : NodeConfig :=
  { bitPeriod := 33, role := .slave, ownAddress := 1, tTimeout := 100000, selectMinX10 := 216 }

/-- FREE VALUE (safe): a byte the spec leaves unspecified, draw number and index given. It stands for the bytes of `RXBUF`
at and beyond `count` (spec/10_state.md R35) and for the buffers after a hardware reset (R36). -/
opaque Config.freeByte : Nat → Nat → Byte

/-- FREE VALUE (safe): a word the spec leaves unspecified, draw number and index given. It stands for `CMD` (index 0) and
`STATUS` (index 1) after a hardware reset (spec/10_state.md R36). -/
opaque Config.freeWord : Nat → Nat → Word

/-- FREE VALUE (safe): whether a source outside the node holds its signal at a tick, source and tick given: the inputs of
the line that the spec leaves free at every tick (spec/20_memory.md R51; spec/70_reset_and_hazards.md R232). -/
opaque Config.freeSignal : Nat → Nat → Bool

end Sys2Proof
end

