-- ==== Sys2Proof/Machine/State.lean ====
section
/-! DEFINITION. The state of one node, as plain data (spec/10_state.md): the configuration, BusState, the hidden bit, the
line output, the sequencer phase with its local variables, the frame buffer, the host port, the clock, the inputs of the
node (the rest of the line, pin setup, the host, hardware reset) and the record of what the node has put on the line. -/

namespace Sys2Proof.Machine

/-- A level of the line (spec/00_scope.md R13). -/
inductive Level where
  | low
  | high
deriving DecidableEq, Repr

/-- A node's output (spec/00_scope.md R13; spec/10_state.md R32). -/
inductive Output where
  | driveLow
  | released
deriving DecidableEq, Repr

/-- The ticks `start`, …, `start + len - 1`. -/
structure Span where
  start : Nat
  len : Nat
deriving DecidableEq, Repr

/-- The ticks `start`, …, `start + len - 1`, and the same again every `every` ticks for ever; only once where `every`
is 0. -/
structure Pulse where
  start : Nat
  len : Nat
  every : Nat
deriving DecidableEq, Repr

/-- From the tick `start` on, whatever the free source numbered `source` does (`Config.freeSignal`). -/
structure FreeFrom where
  source : Nat
  start : Nat
deriving DecidableEq, Repr

/-- An input of the line, one Boolean a tick for ever (spec/20_memory.md R51): it holds in every tick of its pulses and,
where it has one, as its free source says (DESIGN CHOICE of the form, notes/assumptions/3.md). -/
structure Signal where
  pulses : List Pulse
  free : Option FreeFrom
deriving DecidableEq, Repr

/-- The signal that never holds. -/
def Signal.quiet : Signal := ⟨[], none⟩

/-- The two halves of EmitPreamble (spec/42_frame_transport.md R136). -/
inductive PreamblePos where
  | select
  | start
deriving DecidableEq, Repr

/-- The positions inside Transmit (spec/42_frame_transport.md R138): the preamble, bit `i` of `fb[k]`, the stop symbol. -/
inductive TxPos where
  | preamble (p : PreamblePos)
  | bit (k i : Nat)
  | stop
deriving DecidableEq, Repr

/-- The positions inside Receive (spec/42_frame_transport.md R143 to R151), each with the local variables that are live
there (spec/10_state.md R29, R33). The first five are the five waits of the procedure. -/
inductive RxPos where
  /-- `SEARCH`: the wait for LOW (R143). -/
  | seekLow
  /-- The wait for the rise that ends the low begun at `tLow` (R143). -/
  | seekRise (tLow : Nat)
  /-- The wait for the fall that ends the start high begun at `tRise` (R143). -/
  | seekFall (tRise : Nat)
  /-- DecodeBit phase 1 for bit `i`, the bits so far shifted into `acc` (spec/41_bit_codec.md R125, R129). -/
  | bitRise (i : Nat) (acc : Byte)
  /-- DecodeBit phase 2 for bit `i`, the high phase having begun at `tRise` (spec/41_bit_codec.md R126, R129). -/
  | bitFall (i : Nat) (acc : Byte) (tRise : Nat)
  /-- The byte loop has ended: steps 3 to 7 judge the bytes of `fb` (R146 to R151). -/
  | judge
deriving DecidableEq, Repr

/-- The sequencer phase (spec/10_state.md R29): `Ready`, or the position inside the procedure of the command in
progress. -/
inductive Phase where
  | ready
  /-- A Master's OPEN, emitting its preamble (spec/43_driver_commands.md R162). -/
  | opening (p : PreamblePos)
  /-- WRITE, inside Transmit (spec/43_driver_commands.md R168). -/
  | transmitting (p : TxPos)
  /-- READ, inside `Receive(maxLen)` (spec/43_driver_commands.md R166). -/
  | receiving (p : RxPos) (maxLen : Nat)
deriving DecidableEq, Repr

/-- The statuses and discard reasons that have a code (spec/60_exceptions.md R180). -/
inductive StatusCode where
  | ok
  | notInitialized
  | notReady
  | alreadyOpen
  | unsupportedMode
  | writeNotPermitted
  | timeout
  | malformed
  | checksumMismatch
  | notAddressedToMe
deriving DecidableEq, Repr

/-- The internal discard reasons of Receive (spec/60_exceptions.md R186). -/
inductive Discard where
  | noise
  | malformed
  | notAddressedToMe
  | checksumMismatch
deriving DecidableEq, Repr

/-- A move of the outside world between commands. -/
inductive Input where
  /-- The host lets time pass (spec/70_reset_and_hazards.md R232). -/
  | wait (ticks : Nat)
  /-- The host writes a byte of `TXBUF` (spec/10_state.md R35). -/
  | writeTx (index : Fin 32) (value : Byte)
  /-- The environment sets the outcome of the next pin setup (spec/40_line_adapter.md R116). -/
  | pinSetup (ok : Bool)
  /-- The host writes `CMD` (spec/10_state.md R35). -/
  | issue (w : Word)
deriving DecidableEq, Repr

/-- A host buffer of 32 bytes, `TXBUF` or `RXBUF` (spec/10_state.md R35). -/
abbrev Buffer := Vector Byte 32

/-- The reasons a run may stop with a fault. There are none: "No operation is fatal to the process; all failures are
returned to the caller" (spec/60_exceptions.md R194), so no meaning raises one. -/
inductive Fault where
deriving DecidableEq, Repr

/-- The reasons the model gives no meaning. -/
inductive Refusal where
  /-- An instruction that has no meaning yet, by its mnemonic; raised by `exec` alone. Safe: the run stops. -/
  | notModelled (mnemonic : String)
  /-- A reserved command word (spec/30_encoding.md R102; U5 of spec/93_implementation_defined.md: `refuse`); raised when
  the host issues one, and by the meaning of WRITE for an ill-formed `len > 32`. Safe: the run stops. -/
  | reservedCommand
  /-- A configuration outside its ranges (spec/10_state.md R21; U10 of spec/93_implementation_defined.md: `refuse`, not a
  node); raised by `step`. Safe: the run stops. -/
  | illegalConfig
deriving DecidableEq, Repr

/-- The state of a node. -/
structure State where
  /-- `cfg` (spec/10_state.md R20): no command writes it. -/
  cfg : NodeConfig
  /-- BusState `initialized` (spec/10_state.md R23). -/
  initialized : Bool
  /-- BusState `busy` (spec/10_state.md R23). -/
  busy : Bool
  /-- BusState `write_enabled`, the half-duplex turn (spec/10_state.md R23). -/
  writeEnabled : Bool
  /-- `preamble_sent` (spec/10_state.md R31). -/
  preambleSent : Bool
  /-- `out` (spec/10_state.md R32). -/
  out : Output
  /-- The sequencer phase (spec/10_state.md R29). -/
  phase : Phase
  /-- The frame buffer: `fb[0..fb_len-1]`, so that `fb_len` is its length (spec/10_state.md R27). -/
  fb : List Byte
  /-- `CMD` (spec/10_state.md R35). -/
  cmd : Word
  /-- `TXBUF[0..31]` (spec/10_state.md R35). -/
  txbuf : Buffer
  /-- `STATUS` (spec/10_state.md R35). -/
  status : Word
  /-- `RXBUF[0..31]` (spec/10_state.md R35). -/
  rxbuf : Buffer
  /-- `now`, the microsecond clock (spec/20_memory.md R52). -/
  now : Nat
  /-- Pin setup, the input `setup_ok` (spec/40_line_adapter.md R116, R117). -/
  setupOk : Bool
  /-- When the other nodes of the bus drive the line low (spec/20_memory.md R50). -/
  peersLow : Signal
  /-- `env_low` (spec/20_memory.md R51). -/
  envLow : Signal
  /-- `env_high` (spec/20_memory.md R51). -/
  envHigh : Signal
  /-- The host's and the environment's moves still to come, next first (spec/00_scope.md R11). -/
  inputs : List Input
  /-- The ticks of the hardware resets still to come, next first (spec/70_reset_and_hazards.md R210, R211). -/
  resets : List Nat
  /-- The tick in which the last command ended, none after reset (spec/70_reset_and_hazards.md R230). -/
  endTick : Option Nat
  /-- When this node has driven the line low, oldest first (spec/40_line_adapter.md R110; the MODEL's own record,
  notes/assumptions/12.md). No step reads it. -/
  lows : List Span
  /-- The trace of discards, oldest first, each with its tick (spec/60_exceptions.md R186; notes/assumptions/12.md). No step
  reads it. -/
  discards : List (Discard × Nat)
  /-- How many free values have been drawn: the MODEL's own field (notes/assumptions/5.md). -/
  draws : Nat
deriving DecidableEq, Repr

/-- A node right after reset, its configuration given: the table of spec/10_state.md R36. The buffers, `CMD` and `STATUS`
are unspecified there and zero here (DESIGN CHOICE, unsafe, notes/assumptions/2.md); the inputs are those of a line at
rest and a host that issues nothing (notes/assumptions/3.md). -/
def State.resetOf (cfg : NodeConfig) : State where
  cfg := cfg
  initialized := false
  busy := false
  writeEnabled := false
  preambleSent := false
  out := .released
  phase := .ready
  fb := []
  cmd := 0
  txbuf := Vector.replicate 32 0
  status := 0
  rxbuf := Vector.replicate 32 0
  now := 0
  setupOk := true
  peersLow := .quiet
  envLow := .quiet
  envHigh := .quiet
  inputs := []
  resets := []
  endTick := none
  lows := []
  discards := []
  draws := 0

/-- The node of the reference configuration right after reset. -/
def State.reset : State := State.resetOf NodeConfig.reference

/-- What the sequencer does next. -/
inductive Fetch where
  /-- It runs an instruction in a state. -/
  | run (i : Instr) (s : State)
  /-- It makes a move that is no instruction. -/
  | move (s : State)
  /-- It has no next step, and the model refuses. -/
  | reject (r : Refusal)
deriving DecidableEq, Repr

end Sys2Proof.Machine
end

