-- ==== Sys2Proof/Machine/Timing.lean ====
section
/-! DEFINITION. The timing parameters of a node (spec/00_scope.md R9), as natural numbers of microseconds, and its
thresholds, compared by cross-multiplication (R12). -/

namespace Sys2Proof.Machine

/-- A configuration within its ranges (spec/10_state.md R21). -/
abbrev legalConfig (c : NodeConfig) : Prop :=
  1 ≤ c.bitPeriod ∧ 27 * c.bitPeriod < c.tTimeout ∧ 12 < c.selectMinX10 ∧ c.selectMinX10 ≤ 270

/-- `T_SYNC` (spec/00_scope.md R9). -/
def tSync (c : NodeConfig) : Nat := 1 * c.bitPeriod

/-- `T_HIGH0` (spec/00_scope.md R9). -/
def tHigh0 (c : NodeConfig) : Nat := 1 * c.bitPeriod

/-- `T_HIGH1` (spec/00_scope.md R9). -/
def tHigh1 (c : NodeConfig) : Nat := 2 * c.bitPeriod

/-- `T_SELECT` (spec/00_scope.md R9). -/
def tSelect (c : NodeConfig) : Nat := 27 * c.bitPeriod

/-- `T_START` (spec/00_scope.md R9). -/
def tStart (c : NodeConfig) : Nat := 3 * c.bitPeriod

/-- `T_STOP_LOW` (spec/00_scope.md R9). -/
def tStopLow (c : NodeConfig) : Nat := 1 * c.bitPeriod

/-- `T_STOP_HOLD` (spec/00_scope.md R9). -/
def tStopHold (c : NodeConfig) : Nat := 3 * c.bitPeriod

/-- `STOP_LIMIT`, the least `d` with `10*d > 24*bp` (spec/00_scope.md R9; spec/41_bit_codec.md R126). -/
def stopLimit (c : NodeConfig) : Nat := 24 * c.bitPeriod / 10 + 1

/-- `MAX_PAYLOAD` (spec/00_scope.md R9). -/
def maxPayload : Nat := 32

/-- A low of `l` ticks is a select condition (spec/42_frame_transport.md R143). -/
abbrev isSelect (c : NodeConfig) (l : Nat) : Prop := c.selectMinX10 * c.bitPeriod ≤ 10 * l

/-- A high of `h` ticks after a select is a start condition (spec/42_frame_transport.md R143). -/
abbrev isStart (c : NodeConfig) (h : Nat) : Prop := 24 * c.bitPeriod ≤ 10 * h

/-- The bit that a high phase of `d` ticks carries, Stop apart (spec/41_bit_codec.md R126): One iff `10*d > 12*bp`. -/
def bitOf (c : NodeConfig) (d : Nat) : Bool := decide (12 * c.bitPeriod < 10 * d)

/-- The three bands of a high phase (spec/30_encoding.md R82). -/
inductive Band where
  | zero
  | one
  | stop
deriving DecidableEq, Repr

/-- The band of a high phase of `d` ticks (spec/30_encoding.md R82). -/
def bandOf (c : NodeConfig) (d : Nat) : Band :=
  if 24 * c.bitPeriod < 10 * d then .stop else if bitOf c d then .one else .zero

end Sys2Proof.Machine
end

