-- ==== Sys2Proof/Machine/Flags.lean ====
section
/-! DEFINITION. The flags of BusState and the hidden bit (spec/10_state.md R23, R31), the lifecycle they make (R24), and
the status word (spec/30_encoding.md R101). -/

namespace Sys2Proof.Machine

/-- The numeric codes (spec/60_exceptions.md R180). -/
def StatusCode.code : StatusCode → Byte
  | .ok => 0x00
  | .notInitialized => 0x01
  | .notReady => 0x02
  | .alreadyOpen => 0x03
  | .unsupportedMode => 0x04
  | .writeNotPermitted => 0x05
  | .timeout => 0x06
  | .malformed => 0x07
  | .checksumMismatch => 0x08
  | .notAddressedToMe => 0x09

/-- `STATUS`: `CODE` in bits 31:24, `COUNT` in 23:16, zero below (spec/30_encoding.md R101). -/
def statusWord (c : StatusCode) (count : Nat) : Word := c.code ++ BitVec.ofNat 8 count ++ 0#16

/-- `STATUS.CODE` (spec/30_encoding.md R101). -/
def statusCode (w : Word) : Byte := w.extractLsb' 24 8

/-- `STATUS.COUNT` (spec/30_encoding.md R101). -/
def statusCount (w : Word) : Byte := w.extractLsb' 16 8

/-- The lifecycle states (spec/10_state.md R24). -/
inductive Lifecycle where
  | uninitialized
  | idle
  | busy
deriving DecidableEq, Repr

/-- The lifecycle state as a function of the flags (spec/10_state.md R24). -/
def lifecycle (s : State) : Lifecycle :=
  if s.initialized then (if s.busy then .busy else .idle) else .uninitialized

/-- The flags after an INIT whose pin setup succeeds (spec/43_driver_commands.md R160). -/
def flagsInitOk (s : State) : State :=
  { s with
    initialized := true
    busy := false
    preambleSent := false
    writeEnabled := match s.cfg.role with
      | .master => true
      | .slave => false }

/-- The flags after an INIT whose pin setup fails (spec/43_driver_commands.md R160). -/
def flagsInitFailed (s : State) : State :=
  { s with initialized := false, busy := false, preambleSent := false, writeEnabled := false }

/-- OPEN takes the session (spec/43_driver_commands.md R162). -/
def setBusy (s : State) : State := { s with busy := true }

/-- CLOSE gives the session up (spec/43_driver_commands.md R164). -/
def clearBusy (s : State) : State := { s with busy := false }

/-- A Slave's WRITE takes the turn (spec/43_driver_commands.md R168). -/
def takeTurn (s : State) : State := { s with writeEnabled := false }

/-- An accepted read request grants the turn (spec/42_frame_transport.md R150). -/
def grantTurn (s : State) : State := { s with writeEnabled := true }

/-- OPEN has put the preamble on the line (spec/43_driver_commands.md R162). -/
def setPreamble (s : State) : State := { s with preambleSent := true }

/-- The preamble is used, or can no longer be (spec/10_state.md R31). -/
def clearPreamble (s : State) : State := { s with preambleSent := false }

end Sys2Proof.Machine
end

