-- ==== Sys2Proof/Machine/Operands.lean ====
section
/-! DEFINITION. The operands of the commands and the parts of a frame: header assembly (spec/30_encoding.md R88, R89), the
checksum (spec/42_frame_transport.md R135), the payload of a WRITE (spec/43_driver_commands.md R172), the clamp of a
READ (spec/30_encoding.md R99), and the contents of `RXBUF` after a delivery (spec/42_frame_transport.md R151). -/

namespace Sys2Proof.Machine

/-- `Checksum(b_0, ..., b_m)`: the 8-bit sum, carries dropped; 0 for no bytes (spec/42_frame_transport.md R135). -/
def checksum : List Byte → Byte
  | [] => 0
  | b :: bs => b + checksum bs

/-- The bytes of a frame in wire order: header, payload, checksum (spec/30_encoding.md R85, R90). -/
def frameBytes (header : Byte) (payload : List Byte) : List Byte :=
  header :: payload ++ [checksum (header :: payload)]

/-- The header a node sends: from the operands on a Master, `(own_address << 1) | 1` on a Slave (spec/30_encoding.md
R89). -/
def txHeader (c : NodeConfig) (addr : Addr) (dir : BitVec 1) : Byte :=
  match c.role with
  | .master => headerByte addr dir
  | .slave => headerByte c.ownAddress 1

/-- The payload of a WRITE: `TXBUF[0..len-1]`, in index order (spec/43_driver_commands.md R172). -/
def txPayload (s : State) (len : Byte) : List Byte := s.txbuf.toList.take len.toNat

/-- `m <- min(max_len, 32)` (spec/43_driver_commands.md R166). -/
def rxLimit (maxLen : Byte) : Nat := min maxLen.toNat maxPayload

/-- The payload of a received frame: `fb[1..n]`, header and checksum stripped (spec/42_frame_transport.md R151). -/
def rxPayload (fb : List Byte) : List Byte := (fb.drop 1).dropLast

/-- Step 5: the checksum of all bytes but the last is the last (spec/42_frame_transport.md R149). -/
def checksumHolds (fb : List Byte) : Bool := fb.getLast? == some (checksum fb.dropLast)

/-- A buffer given byte by byte. -/
def bufferOf (f : Nat → Byte) : Buffer := ⟨((List.range 32).map f).toArray, by simp⟩

/-- `RXBUF` after a delivery: the payload, and beyond it any bytes (spec/10_state.md R35; notes/assumptions/5.md). -/
def rxContents (draw : Nat) (payload : List Byte) : Buffer :=
  bufferOf fun i => payload.getD i (Config.freeByte draw i)

end Sys2Proof.Machine
end

