-- ==== Sys2Proof/Machine/Ops.lean ====
section
/-! DEFINITION. The named operations that every meaning is written in: the line and the Line Signal Adapter
(spec/20_memory.md R50 to R53; spec/40_line_adapter.md R110 to R115), the end of a command, which is all there is of
taking an exception (spec/60_exceptions.md R193) and of returning from one (R194: there is no return), the discard of a
candidate frame (R186), delivery, and hardware reset (spec/70_reset_and_hazards.md R210, R211). -/

namespace Sys2Proof.Machine

/-! ## The line -/

/-- The tick `t` is in the span. -/
def Span.covers (sp : Span) (t : Nat) : Bool := decide (sp.start ≤ t) && decide (t < sp.start + sp.len)

/-- The tick `t` is in one of the spans. -/
def coversAny (l : List Span) (t : Nat) : Bool := l.any (·.covers t)

/-- The tick `t` is in the pulse. -/
def Pulse.covers (p : Pulse) (t : Nat) : Bool := decide (p.start ≤ t) && decide ((t - p.start) % p.every < p.len)

/-- The free source holds at the tick `t`. -/
def FreeFrom.covers (f : FreeFrom) (t : Nat) : Bool := decide (f.start ≤ t) && Config.freeSignal f.source t

/-- The signal at the tick `t` (spec/20_memory.md R51). -/
def Signal.holds (g : Signal) (t : Nat) : Bool :=
  g.pulses.any (·.covers t) ||
    match g.free with
    | none => false
    | some f => f.covers t

/-- The signal that holds in the spans and never else. -/
def Signal.ofSpans (l : List Span) : Signal := ⟨l.map fun sp => ⟨sp.start, sp.len, 0⟩, none⟩

/-- `line(t)` as this node sees it at a tick of its own: HIGH where the environment holds it high; else LOW where this
node, another node or the environment pulls it low; else HIGH (spec/20_memory.md R50, R51; DESIGN CHOICE to include
`env_high`, notes/assumptions/14.md). -/
def lineAt (s : State) (t : Nat) : Level :=
  if s.envHigh.holds t then .high
  else if decide (s.out = .driveLow) || s.peersLow.holds t || s.envLow.holds t then .low
  else .high

/-! ## The Line Signal Adapter -/

/-- `drive_low()` (spec/40_line_adapter.md R110). -/
def driveLow (s : State) : State := { s with out := .driveLow }

/-- `release_high()` (spec/40_line_adapter.md R111). -/
def releaseHigh (s : State) : State := { s with out := .released }

/-- `sample()` (spec/40_line_adapter.md R112). -/
def sample (s : State) : Bool := decide (lineAt s s.now = .high)

/-- `elapsed_microseconds()` (spec/40_line_adapter.md R113). -/
def elapsedMicroseconds (s : State) : Nat := s.now

/-- The record of a node's lows after it has kept its output for `n` ticks. -/
def lowsAfterHold (s : State) (n : Nat) : List Span :=
  match s.out with
  | .driveLow => s.lows ++ [⟨s.now, n⟩]
  | .released => s.lows

/-- `hold(n)` (spec/40_line_adapter.md R114): exact, as D1 of spec/92_eei_decisions.md has it (notes/assumptions/9.md). -/
def hold (n : Nat) (s : State) : State := { s with now := s.now + n, lows := lowsAfterHold s n }

/-- The clock moves to `t`, the output unchanged and released: the end of a wait. -/
def advanceTo (t : Nat) (s : State) : State := { s with now := t }

/-- The result of `wait_until`, with the tick it leaves in `now` (spec/40_line_adapter.md R115). -/
inductive WaitResult where
  | found (t : Nat)
  | expired (t : Nat)
deriving DecidableEq, Repr

/-- The least member of a list that satisfies a test. -/
def leastSuch (p : Nat → Bool) : List Nat → Option Nat
  | [] => none
  | c :: cs =>
    match leastSuch p cs with
    | none => if p c then some c else none
    | some m => if p c then some (min c m) else some m

/-- How often a pulse has begun again by the tick `t`. -/
def Pulse.round (p : Pulse) (t : Nat) : Nat := (t - p.start) / p.every

/-- Where a pulse begins and where it has ended, in the rounds of the ticks from `lo` up to `hi`. -/
def Pulse.edges (p : Pulse) (lo hi : Nat) : List Nat :=
  if p.every = 0 then [p.start, p.start + p.len]
  else (List.range' (p.round lo) (p.round hi + 1 - p.round lo)).flatMap fun k =>
    [p.start + k * p.every, p.start + k * p.every + p.len]

/-- Where a signal can change in the ticks from `lo` up to `hi`: at any of them where it has a free source. -/
def Signal.edges (g : Signal) (lo hi : Nat) : List Nat :=
  g.pulses.flatMap (·.edges lo hi) ++
    match g.free with
    | none => []
    | some _ => (List.range (hi - lo)).map (lo + ·)

/-- The ticks before `hi` at which the line as this node sees it can change level while its own output stays as it is. -/
def lineEdges (s : State) (hi : Nat) : List Nat := [s.peersLow, s.envLow, s.envHigh].flatMap (·.edges s.now hi)

/-- The tick is in the window of a wait and its sample is `v` (spec/40_line_adapter.md R115: the set `T`). -/
def waitHit (s : State) (v : Level) (limit t : Nat) : Bool :=
  decide (s.now ≤ t) && decide (t < s.now + limit) && decide (lineAt s t = v)

/-- `wait_until(v, limit)` (spec/40_line_adapter.md R115): the least tick of `T`, looked for among the entry tick and the
edges of the line, which is where the least tick lies (Laws/Wait.lean). -/
def waitUntil (s : State) (v : Level) (limit : Nat) : WaitResult :=
  match leastSuch (waitHit s v limit) (s.now :: lineEdges s (s.now + limit)) with
  | some t => .found t
  | none => .expired (s.now + limit)

/-! ## The end of a command -/

/-- A command ends now: `STATUS` is written, the sequencer is `Ready`, the transient frame is gone, and the tick is noted
(spec/00_scope.md R14; spec/30_encoding.md R101; spec/10_state.md R27, R29). -/
def endCommand (c : StatusCode) (count : Nat) (s : State) : State :=
  { s with status := statusWord c count, phase := .ready, fb := [], endTick := some s.now }

/-- `return Ok(n)` (spec/00_scope.md R14). -/
def returnOk (n : Nat) (s : State) : State := endCommand .ok n s

/-- `raise E`: the whole of taking an exception on this hardware. Nothing is saved, no mode changes, control goes nowhere;
the sequencer returns to `Ready` with the code in `STATUS` and `COUNT` 0, and the state changes made before the raise stay
(spec/60_exceptions.md R193; spec/00_scope.md R14). There is no return from it (R194). -/
def raiseStatus (e : StatusCode) (s : State) : State := endCommand e 0 s

/-! ## Inside Receive -/

/-- The start search begins again, if the node is in Receive (spec/42_frame_transport.md R143: `goto SEARCH`). -/
def searchPhase : Phase → Phase
  | .receiving _ m => .receiving .seekLow m
  | p => p

/-- `discard(reason); goto SEARCH`: nothing is carried over (spec/42_frame_transport.md R153; spec/60_exceptions.md
R186). -/
def discardFrame (r : Discard) (s : State) : State :=
  { s with discards := s.discards ++ [(r, s.now)], fb := [], phase := searchPhase s.phase }

/-- Step 7: the payload of `fb` goes to `RXBUF` and READ ends with `Ok(n)` (spec/42_frame_transport.md R151). -/
def deliver (s : State) : State :=
  returnOk (rxPayload s.fb).length
    { s with rxbuf := rxContents s.draws (rxPayload s.fb), draws := s.draws + 1 }

/-! ## Inside Transmit -/

/-- The beginning of `Transmit(header, payload)`: the frame is assembled, and the preamble is skipped where a Master's OPEN
has already put it on the line (spec/42_frame_transport.md R138). -/
def beginTransmit (header : Byte) (payload : List Byte) (s : State) : State :=
  if s.cfg.role = .master ∧ s.preambleSent = true then
    { clearPreamble s with fb := frameBytes header payload, phase := .transmitting (.bit 0 7) }
  else
    { s with fb := frameBytes header payload, phase := .transmitting (.preamble .select) }

/-! ## Hardware reset -/

/-- The part of a record of lows before tick `r`. -/
def clipSpans (r : Nat) : List Span → List Span
  | [] => []
  | sp :: l => if sp.start < r then ⟨sp.start, min sp.len (r - sp.start)⟩ :: clipSpans r l else clipSpans r l

/-- A hardware reset: the table of spec/10_state.md R36 at the tick `now`. The four flags are 0, the output is released,
the sequencer is `Ready`; the configuration, the clock, the inputs and the records are not reset; `CMD`, `STATUS`,
`TXBUF` and `RXBUF` are unspecified, so free values (notes/assumptions/5.md). A command in progress ends without a status
(spec/70_reset_and_hazards.md R210, R211). -/
def hardReset (s : State) : State :=
  { s with
    initialized := false
    busy := false
    writeEnabled := false
    preambleSent := false
    out := .released
    phase := .ready
    fb := []
    cmd := Config.freeWord s.draws 0
    status := Config.freeWord s.draws 1
    txbuf := bufferOf fun i => Config.freeByte s.draws i
    rxbuf := bufferOf fun i => Config.freeByte s.draws (32 + i)
    draws := s.draws + 1
    endTick := none
    resets := s.resets.tail }

/-- The reset of tick `r` arrives in the middle of the step from `s` to `t`: what the node has driven before `r` stays on
the record, nothing it would have done at `r` or later happens (spec/70_reset_and_hazards.md R211; DESIGN CHOICE where both
fall in one tick, notes/assumptions/10.md). -/
def resetDuring (r : Nat) (s t : State) : State :=
  hardReset { s with now := r, lows := clipSpans r t.lows, inputs := t.inputs, setupOk := t.setupOk, draws := t.draws }

/-! ## Outcomes -/

/-- The next state of an outcome, changed by `f`. -/
def onNext (f : State → State) : Host.Outcome State Fault Refusal → Host.Outcome State Fault Refusal
  | .next s => .next (f s)
  | .fault r => .fault r
  | .refused r => .refused r

end Sys2Proof.Machine
end

