-- ==== Sys2Proof/Machine/Commands.lean ====
section
/-! DEFINITION. The meanings of the five host commands (spec/43_driver_commands.md): what each does in the tick in which it
is accepted. Where the command goes on over time (a Master's OPEN, READ, WRITE) it leaves the sequencer at the first
position of its procedure; Machine/Sequencer.lean and Machine/Receiver.lean take it from there, one symbol or one wait a
step. -/

namespace Sys2Proof.Machine

/-- `INIT` (spec/43_driver_commands.md R160). -/
def execCmdInit (s : State) : Host.Outcome State Fault Refusal :=
  if s.setupOk then .next (returnOk 0 (flagsInitOk (releaseHigh s)))
  else .next (raiseStatus .notReady (flagsInitFailed (releaseHigh s)))

/-- `OPEN mode` (spec/43_driver_commands.md R162). -/
def execCmdOpen (mode : Byte) (s : State) : Host.Outcome State Fault Refusal :=
  if s.initialized = false then .next (raiseStatus .notInitialized s)
  else if s.busy = true then .next (raiseStatus .alreadyOpen s)
  else if mode ≠ 0 then .next (raiseStatus .unsupportedMode s)
  else
    match s.cfg.role with
    | .master => .next { setBusy s with phase := .opening .select }
    | .slave => .next (returnOk 0 (setBusy s))

/-- `CLOSE` (spec/43_driver_commands.md R164). -/
def execCmdClose (s : State) : Host.Outcome State Fault Refusal :=
  if s.initialized = false then .next (raiseStatus .notInitialized s)
  else
    match s.cfg.role with
    | .master => .next (returnOk 0 (clearBusy (clearPreamble (releaseHigh s))))
    | .slave => .next (returnOk 0 (clearBusy s))

/-- `READ max_len` (spec/43_driver_commands.md R166). -/
def execCmdRead (maxLen : Byte) (s : State) : Host.Outcome State Fault Refusal :=
  if s.initialized = false then .next (raiseStatus .notInitialized s)
  else .next { clearPreamble s with fb := [], phase := .receiving .seekLow (rxLimit maxLen) }

/-- `WRITE addr, dir, len` (spec/43_driver_commands.md R168). A term with `len > 32` is no instruction
(spec/30_encoding.md R102) and is refused. -/
def execCmdWrite (addr : Addr) (dir : BitVec 1) (len : Byte) (s : State) : Host.Outcome State Fault Refusal :=
  if 32 < len.toNat then .refused .reservedCommand
  else if s.initialized = false then .next (raiseStatus .notInitialized s)
  else
    match s.cfg.role with
    | .master => .next (beginTransmit (txHeader s.cfg addr dir) (txPayload s len) s)
    | .slave =>
      if s.writeEnabled = false then .next (raiseStatus .writeNotPermitted s)
      else .next (beginTransmit (txHeader s.cfg addr dir) (txPayload s len) (takeTurn s))

end Sys2Proof.Machine
end

