-- ==== Sys2Proof/Machine/Frames.lean ====
section
/-! DEFINITION. The meanings of the two kinds of frame at a receiver (spec/30_encoding.md R91): steps 3 to 7 of Receive on
the bytes of `fb`, whose header is the instruction (spec/42_frame_transport.md R146 to R151). -/

namespace Sys2Proof.Machine

/-- Steps 3, 4 and 5: the reason a candidate frame with header address `a` is discarded, if there is one; the first check
that fails names it (spec/42_frame_transport.md R146, R148, R149; spec/60_exceptions.md R192). -/
def discardReason (a : Addr) (s : State) : Option Discard :=
  if s.fb.length < 2 then some .malformed
  else if s.cfg.role = .slave ∧ a ≠ s.cfg.ownAddress then some .notAddressedToMe
  else if checksumHolds s.fb = false then some .checksumMismatch
  else none

/-- Step 6: a Slave that accepts a read request has the turn (spec/42_frame_transport.md R150). -/
def turnGrant (s : State) : State :=
  match s.cfg.role with
  | .slave => grantTurn s
  | .master => s

/-- `FRAME_RDREQ` (spec/42_frame_transport.md R150): a discard, or the turn and the payload. -/
def execFrameRdreq (a : Addr) (s : State) : Host.Outcome State Fault Refusal :=
  match discardReason a s with
  | some r => .next (discardFrame r s)
  | none => .next (deliver (turnGrant s))

/-- `FRAME_DATA` (spec/42_frame_transport.md R151): a discard, or the payload alone. -/
def execFrameData (a : Addr) (s : State) : Host.Outcome State Fault Refusal :=
  match discardReason a s with
  | some r => .next (discardFrame r s)
  | none => .next (deliver s)

end Sys2Proof.Machine
end

