-- ==== Sys2Proof/Machine/Symbols.lean ====
section
/-! DEFINITION. The meanings of the five line symbols (spec/30_encoding.md R80): what a transmitter does with its output and
the clock. No symbol looks at the line, writes a flag or can fail. -/

namespace Sys2Proof.Machine

/-- Drive low for `n` ticks (spec/40_line_adapter.md R110, R114). -/
def emitLow (n : Nat) (s : State) : State := hold n (driveLow s)

/-- Release for `n` ticks (spec/40_line_adapter.md R111, R114). -/
def emitHigh (n : Nat) (s : State) : State := hold n (releaseHigh s)

/-- `SELECT`, the first line of EmitPreamble (spec/42_frame_transport.md R136). -/
def execSymSelect (s : State) : Host.Outcome State Fault Refusal :=
  .next (emitLow (tSelect s.cfg) s)

/-- `START`, the second line of EmitPreamble (spec/42_frame_transport.md R136). -/
def execSymStart (s : State) : Host.Outcome State Fault Refusal :=
  .next (emitHigh (tStart s.cfg) s)

/-- `BIT0`: EncodeBit0 (spec/41_bit_codec.md R121). -/
def execSymBit0 (s : State) : Host.Outcome State Fault Refusal :=
  .next (emitHigh (tHigh0 s.cfg) (emitLow (tSync s.cfg) s))

/-- `BIT1`: EncodeBit1 (spec/41_bit_codec.md R122). -/
def execSymBit1 (s : State) : Host.Outcome State Fault Refusal :=
  .next (emitHigh (tHigh1 s.cfg) (emitLow (tSync s.cfg) s))

/-- `STOP`: EmitStop (spec/42_frame_transport.md R137). -/
def execSymStop (s : State) : Host.Outcome State Fault Refusal :=
  .next (emitHigh (tStopHold s.cfg) (emitLow (tStopLow s.cfg) s))

end Sys2Proof.Machine
end

