-- ==== Sys2Proof/Machine/Dispatch.lean ====
section
/-! DEFINITION. One arm per row of spec/opcode_table.json. -/

namespace Sys2Proof.Machine

def exec (i : Instr) (s : State) : Host.Outcome State Fault Refusal :=
  match i with
  | .cmdInit => Sys2Proof.Machine.execCmdInit s
  | .cmdOpen mode => Sys2Proof.Machine.execCmdOpen mode s
  | .cmdClose => Sys2Proof.Machine.execCmdClose s
  | .cmdRead maxLen => Sys2Proof.Machine.execCmdRead maxLen s
  | .cmdWrite addr dir len => Sys2Proof.Machine.execCmdWrite addr dir len s
  | .symSelect => Sys2Proof.Machine.execSymSelect s
  | .symStart => Sys2Proof.Machine.execSymStart s
  | .symBit0 => Sys2Proof.Machine.execSymBit0 s
  | .symBit1 => Sys2Proof.Machine.execSymBit1 s
  | .symStop => Sys2Proof.Machine.execSymStop s
  | .frameRdreq a => Sys2Proof.Machine.execFrameRdreq a s
  | .frameData a => Sys2Proof.Machine.execFrameData a s

end Sys2Proof.Machine
end

