-- ==== Sys2Proof/Machine/Receiver.lean ====
section
/-! DEFINITION. Steps 1 and 2 of Receive, one wait a step: the start search and the bit and byte decoder
(spec/42_frame_transport.md R143, R144; spec/41_bit_codec.md R124 to R129). Each definition gives the state after the wait
of one position; steps 3 to 7 are in Machine/Frames.lean. -/

namespace Sys2Proof.Machine

/-- A wait bounded by `T_TIMEOUT`: its expiry ends READ with `Timeout` (spec/42_frame_transport.md R152). -/
def waitOrTimeout (v : Level) (onFound : State → State) (s : State) : State :=
  match waitUntil s v s.cfg.tTimeout with
  | .found t => onFound (advanceTo t s)
  | .expired t => raiseStatus .timeout (advanceTo t s)

/-- The position of Receive becomes `p`. -/
def rxAt (p : RxPos) (m : Nat) (s : State) : State := { s with phase := .receiving p m }

/-- `SEARCH`: the wait for LOW (spec/42_frame_transport.md R143). -/
def rxSeekLow (m : Nat) (s : State) : State :=
  waitOrTimeout .low (fun u => rxAt (.seekRise u.now) m u) s

/-- The end of the low: a select condition, or noise (spec/42_frame_transport.md R143). -/
def rxSeekRise (tLow m : Nat) (s : State) : State :=
  waitOrTimeout .high
    (fun u => if isSelect u.cfg (u.now - tLow) then rxAt (.seekFall u.now) m u else discardFrame .noise u) s

/-- The end of the high: a start condition, after which the first byte begins, or noise (spec/42_frame_transport.md R143,
R144). -/
def rxSeekFall (tRise m : Nat) (s : State) : State :=
  waitOrTimeout .low
    (fun u => if isStart u.cfg (u.now - tRise) then { rxAt (.bitRise 7 0) m u with fb := [] } else discardFrame .noise u) s

/-- DecodeBit phase 1, the sync wait (spec/41_bit_codec.md R125). -/
def rxBitRise (i : Nat) (acc : Byte) (m : Nat) (s : State) : State :=
  waitOrTimeout .high (fun u => rxAt (.bitFall i acc u.now) m u) s

/-- `B <- (B << 1) | bit` (spec/41_bit_codec.md R129). -/
def shiftIn (acc : Byte) (bit : Bool) : Byte := (acc <<< 1) ||| (if bit then 1 else 0)

/-- A whole byte has been decoded: it goes to `fb`, and the byte loop goes on until `fb_len = max_len + 2`
(spec/42_frame_transport.md R144, R145). -/
def rxByteDone (b : Byte) (m : Nat) (s : State) : State :=
  if s.fb.length + 1 < m + 2 then { rxAt (.bitRise 7 0) m s with fb := s.fb ++ [b] }
  else { rxAt .judge m s with fb := s.fb ++ [b] }

/-- Bit `i` has been decoded (spec/41_bit_codec.md R129). -/
def rxBitDone (i : Nat) (acc : Byte) (bit : Bool) (m : Nat) (s : State) : State :=
  match i with
  | 0 => rxByteDone (shiftIn acc bit) m s
  | j + 1 => rxAt (.bitRise j (shiftIn acc bit)) m s

/-- DecodeBit phase 2: the high phase is measured, or is a Stop once it has lasted `STOP_LIMIT` ticks, which ends the byte
loop and drops the bits of a partial byte (spec/41_bit_codec.md R126, R129; spec/42_frame_transport.md R144). -/
def rxBitFall (i : Nat) (acc : Byte) (tRise m : Nat) (s : State) : State :=
  match waitUntil s .low (stopLimit s.cfg) with
  | .found t => rxBitDone i acc (bitOf s.cfg (t - tRise)) m (advanceTo t s)
  | .expired t => rxAt .judge m (advanceTo t s)

/-- The end of the byte loop: a frame of no bytes has no header and is malformed (spec/42_frame_transport.md R146); any
other is judged as the kind of frame its header says. -/
def rxJudge (s : State) : Fetch :=
  match s.fb with
  | [] => .move (discardFrame .malformed s)
  | h :: _ => .run (decodeHdr h) s

/-- What the sequencer does next in `Receive(m)`. -/
def fetchReceive (p : RxPos) (m : Nat) (s : State) : Fetch :=
  match p with
  | .seekLow => .move (rxSeekLow m s)
  | .seekRise tLow => .move (rxSeekRise tLow m s)
  | .seekFall tRise => .move (rxSeekFall tRise m s)
  | .bitRise i acc => .move (rxBitRise i acc m s)
  | .bitFall i acc tRise => .move (rxBitFall i acc tRise m s)
  | .judge => rxJudge s

end Sys2Proof.Machine
end

