-- ==== Sys2Proof/Machine/Sequencer.lean ====
section
/-! DEFINITION. The sequencer (spec/10_state.md R29, R30): which instruction it runs next and how its position moves on
after a symbol. In phase `Ready` it takes the host's next move (spec/20_memory.md R67); inside OPEN and WRITE it runs the
symbols of EmitPreamble and Transmit (spec/42_frame_transport.md R136, R138); inside READ it makes the waits of Receive. -/

namespace Sys2Proof.Machine

/-- The symbol of a half of the preamble (spec/42_frame_transport.md R136). -/
def preambleSymbol : PreamblePos → Instr
  | .select => .symSelect
  | .start => .symStart

/-- EncodeBit (spec/41_bit_codec.md R120). -/
def bitSymbol (v : Bool) : Instr := if v then .symBit1 else .symBit0

/-- The symbol at a position of Transmit: bit `i` of `fb[k]` (spec/42_frame_transport.md R138; spec/41_bit_codec.md
R128). -/
def txSymbol (fb : List Byte) : TxPos → Instr
  | .preamble p => preambleSymbol p
  | .bit k i => bitSymbol ((fb.getD k 0).getLsbD i)
  | .stop => .symStop

/-- The position after the symbol at a position of Transmit, none after the last: bits 7 down to 0 of each byte in turn,
then the stop symbol (spec/42_frame_transport.md R138; spec/41_bit_codec.md R128). -/
def txNext (fb : List Byte) : TxPos → Option TxPos
  | .preamble .select => some (.preamble .start)
  | .preamble .start => some (.bit 0 7)
  | .bit k (i + 1) => some (.bit k i)
  | .bit k 0 => if k + 1 < fb.length then some (.bit (k + 1) 7) else some .stop
  | .stop => none

/-- The sequencer moves on after a symbol. OPEN ends with `preamble_sent` set (spec/43_driver_commands.md R162), WRITE with
`Ok(len)` (R168). -/
def afterSymbol (s : State) : State :=
  match s.phase with
  | .opening .select => { s with phase := .opening .start }
  | .opening .start => returnOk 0 (setPreamble s)
  | .transmitting p =>
    match txNext s.fb p with
    | some q => { s with phase := .transmitting q }
    | none => returnOk (s.fb.length - 2) s
  | .ready => s
  | .receiving _ _ => s

/-- The instruction is a line symbol. -/
def isSymbol : Instr → Bool
  | .symSelect | .symStart | .symBit0 | .symBit1 | .symStop => true
  | .cmdInit | .cmdOpen _ | .cmdClose | .cmdRead _ | .cmdWrite _ _ _ => false
  | .frameRdreq _ | .frameData _ => false

/-- What the sequencer adds after an instruction: after a symbol it moves on. -/
def settle (i : Instr) (s : State) : State := if isSymbol i then afterSymbol s else s

/-- The tick at which a command issued now starts: strictly after the tick the previous one ended
(spec/70_reset_and_hazards.md R230; notes/assumptions/6.md). -/
def startTick (s : State) : Nat :=
  match s.endTick with
  | some e => max s.now (e + 1)
  | none => s.now

/-- The port accepts the command word `w`, the moves `rest` staying to come (spec/10_state.md R35). -/
def accept (w : Word) (rest : List Input) (s : State) : State :=
  { s with cmd := w, inputs := rest, now := startTick s }

/-- Phase `Ready`: the outside world's next move. A host that issues nothing lets a tick pass
(DESIGN CHOICE, notes/assumptions/4.md); a reserved word is refused (spec/30_encoding.md R102; notes/assumptions/15.md). -/
def fetchReady (s : State) : Fetch :=
  match s.inputs with
  | [] => .move { s with now := s.now + 1 }
  | .wait n :: rest => .move { s with now := s.now + n, inputs := rest }
  | .writeTx i v :: rest => .move { s with txbuf := s.txbuf.set i v, inputs := rest }
  | .pinSetup ok :: rest => .move { s with setupOk := ok, inputs := rest }
  | .issue w :: rest =>
    match decodeCmd w with
    | .ok i => .run i (accept w rest s)
    | .error _ => .reject .reservedCommand

/-- What the sequencer does next. -/
def fetch (s : State) : Fetch :=
  match s.phase with
  | .ready => fetchReady s
  | .opening p => .run (preambleSymbol p) s
  | .transmitting p => .run (txSymbol s.fb p) s
  | .receiving p m => fetchReceive p m s

/-- The node is made to run the code word `c` next: a command word is the host's next move, a symbol stands at a position
of Transmit that has it, a header stands in a frame that Receive is about to judge (DESIGN CHOICE,
notes/assumptions/8.md). -/
def placeCodeWord (c : CodeWord) (s : State) : State :=
  match c with
  | .cmd w => { s with phase := .ready, inputs := .issue w :: s.inputs }
  | .sym p =>
    match decodeSym p with
    | .ok .symSelect => { s with phase := .transmitting (.preamble .select) }
    | .ok .symStart => { s with phase := .transmitting (.preamble .start) }
    | .ok .symBit0 => { s with fb := [0x00], phase := .transmitting (.bit 0 0) }
    | .ok .symBit1 => { s with fb := [0x01], phase := .transmitting (.bit 0 0) }
    | .ok .symStop => { s with phase := .transmitting .stop }
    | _ => s
  | .hdr b => { s with fb := frameBytes b [], phase := .receiving .judge 0 }

end Sys2Proof.Machine
end

