-- ==== Sys2Proof/Machine/Step.lean ====
section
/-! DEFINITION. One step of a node: the sequencer's next instruction or move, unless a hardware reset arrives first. -/

namespace Sys2Proof.Machine

/-- A step without hardware reset. -/
def stepCore (s : State) : Host.Outcome State Fault Refusal :=
  match fetch s with
  | .run i u => onNext (settle i) (exec i u)
  | .move u => .next u
  | .reject r => .refused r

/-- One step. A reset that is due is taken before anything else; one whose tick the step would reach cuts the step short
(spec/70_reset_and_hazards.md R210, R211). -/
def step (s : State) : Host.Outcome State Fault Refusal :=
  if legalConfig s.cfg then
    match s.resets with
    | [] => stepCore s
    | r :: _ =>
      if r ≤ s.now then .next (hardReset s)
      else onNext (fun t => if r ≤ t.now then resetDuring r s t else t) (stepCore s)
  else .refused .illegalConfig

/-- The state in which the very next step runs the instruction a table row's bits stand for (notes/assumptions/8.md): no
hardware reset comes first, and the code word stands where the sequencer takes its next instruction. -/
def State.withFetchWord (s : State) (nbits w : Nat) : State :=
  match tableCodeWord nbits w with
  | none => s
  | some c => placeCodeWord c { s with resets := [] }

end Sys2Proof.Machine
end

