-- ==== Sys2Proof/Machine/Bus.lean ====
section
/-! DEFINITION. Several nodes on one line (spec/20_memory.md R50, R71; spec/60_exceptions.md R198). The machine is one node,
to which the rest of the bus is an input; a bus is a list of nodes whose inputs agree with what the others have driven. -/

namespace Sys2Proof.Machine

/-- The nodes of a bus and the environment of its line. -/
structure Bus where
  nodes : List State
  envLow : Signal
  envHigh : Signal
deriving DecidableEq, Repr

/-- The node drove the line low at the tick. -/
def drove (s : State) (t : Nat) : Bool := coversAny s.lows t

/-- `line(t)`, the wired-AND of all nodes and the environment (spec/20_memory.md R50, R51). -/
def Bus.lineAt (b : Bus) (t : Nat) : Level :=
  if b.envHigh.holds t then .high
  else if b.nodes.any (drove · t) || b.envLow.holds t then .low
  else .high

/-- The level of the line at a past tick, from what one node drove and was given. -/
def levelSeen (s : State) (t : Nat) : Level :=
  if s.envHigh.holds t then .high
  else if drove s t || s.peersLow.holds t || s.envLow.holds t then .low
  else .high

/-- Up to the tick `h` each node of the bus was given the environment of the line and the lows of the other nodes. -/
def Bus.AgreesBefore (b : Bus) (h : Nat) : Prop :=
  ∀ t < h, ∀ pre s post, b.nodes = pre ++ s :: post →
    s.envHigh.holds t = b.envHigh.holds t ∧
    s.envLow.holds t = b.envLow.holds t ∧
    s.peersLow.holds t = (pre ++ post).any (drove · t)

end Sys2Proof.Machine
end

