-- ==== Sys2Proof/Machine/Run.lean ====
section
/-! DEFINITION. Several steps of a node, for statements about commands that go on over time. -/

namespace Sys2Proof.Machine

/-- `k` steps, stopping at the first that does not answer a next state. -/
def run : Nat → State → Host.Outcome State Fault Refusal
  | 0, s => .next s
  | k + 1, s =>
    match step s with
    | .next t => run k t
    | .fault r => .fault r
    | .refused r => .refused r

end Sys2Proof.Machine
end

