-- ==== Sys2Proof/Machine/Waveform.lean ====
section
/-! DEFINITION. What a transmitter puts on the line, as a function of the bytes (spec/30_encoding.md R80, R84, R86): the
symbols of a byte and of a frame, how long they last, and the spans in which they hold the line low. The machine does not
use these functions; the statements say with them what the machine does. -/

namespace Sys2Proof.Machine

/-- How long a symbol lasts (spec/70_reset_and_hazards.md R230); an instruction that is no symbol takes no line time. -/
def symbolTicks (c : NodeConfig) : Instr → Nat
  | .symSelect => 27 * c.bitPeriod
  | .symStart => 3 * c.bitPeriod
  | .symBit0 => 2 * c.bitPeriod
  | .symBit1 => 3 * c.bitPeriod
  | .symStop => 4 * c.bitPeriod
  | .cmdInit | .cmdOpen _ | .cmdClose | .cmdRead _ | .cmdWrite _ _ _ => 0
  | .frameRdreq _ | .frameData _ => 0

/-- When a symbol begun at tick `t` holds the line low (spec/30_encoding.md R80). -/
def symbolLows (c : NodeConfig) (t : Nat) : Instr → List Span
  | .symSelect => [⟨t, 27 * c.bitPeriod⟩]
  | .symStart => []
  | .symBit0 => [⟨t, c.bitPeriod⟩]
  | .symBit1 => [⟨t, c.bitPeriod⟩]
  | .symStop => [⟨t, c.bitPeriod⟩]
  | .cmdInit | .cmdOpen _ | .cmdClose | .cmdRead _ | .cmdWrite _ _ _ => []
  | .frameRdreq _ | .frameData _ => []

/-- How long a sequence of symbols lasts. -/
def waveTicks (c : NodeConfig) : List Instr → Nat
  | [] => 0
  | i :: l => symbolTicks c i + waveTicks c l

/-- When a sequence of symbols begun at tick `t` holds the line low. -/
def waveLows (c : NodeConfig) (t : Nat) : List Instr → List Span
  | [] => []
  | i :: l => symbolLows c t i ++ waveLows c (t + symbolTicks c i) l

/-- The preamble (spec/42_frame_transport.md R136). -/
def preambleSymbols : List Instr := [.symSelect, .symStart]

/-- The last `i` bits of a byte, bit `i - 1` first. -/
def bitSymbols (b : Byte) : Nat → List Instr
  | 0 => []
  | i + 1 => bitSymbol (b.getLsbD i) :: bitSymbols b i

/-- The symbols of a byte, bit 7 first (spec/41_bit_codec.md R128). -/
def byteSymbols (b : Byte) : List Instr := bitSymbols b 8

/-- The symbols of a frame after its preamble: its bytes in order and the stop symbol (spec/42_frame_transport.md R138). -/
def frameSymbols (fb : List Byte) : List Instr := fb.flatMap byteSymbols ++ [.symStop]

/-- The number of 1 bits among the last `i` bits of a byte. -/
def onesBelow (b : Byte) : Nat → Nat
  | 0 => 0
  | i + 1 => (if b.getLsbD i then 1 else 0) + onesBelow b i

/-- `popcount(B)` (spec/30_encoding.md R84). -/
def popcount (b : Byte) : Nat := onesBelow b 8

/-- `P`, the number of 1 bits in all bytes of a frame (spec/30_encoding.md R86). -/
def onesOf (fb : List Byte) : Nat := (fb.map popcount).sum

/-- The symbols a WRITE accepted in state `s` sends for the bytes `fb`: the preamble unless a Master's OPEN has sent it
(spec/42_frame_transport.md R138). -/
def writeSymbols (s : State) (fb : List Byte) : List Instr :=
  (if s.cfg.role = .master ∧ s.preambleSent = true then [] else preambleSymbols) ++ frameSymbols fb

end Sys2Proof.Machine
end

