-- ==== Sys2Proof/Safety.lean ====
section
/-! DEFINITION. What a good state of a node is: the invariants of spec/10_state.md R24, R25, R26, R27, R31, R32 and of
spec/60_exceptions.md R186, and what the host can see of a node (R22). -/

namespace Sys2Proof.Machine

/-- The output drives low only in the middle of a preamble, after its select condition; at every other position a step
starts from, and in `Ready`, it is released (spec/10_state.md R32; spec/42_frame_transport.md R136). -/
def outputOf : Phase → Output
  | .opening .start => .driveLow
  | .transmitting (.preamble .start) => .driveLow
  | .opening .select => .released
  | .transmitting (.preamble .select) => .released
  | .transmitting (.bit _ _) => .released
  | .transmitting .stop => .released
  | .receiving _ _ => .released
  | .ready => .released

/-- The bytes are a frame: header, payload of at most 32 bytes, checksum (spec/30_encoding.md R85). -/
def isFrame (fb : List Byte) : Prop := ∃ h p, p.length ≤ maxPayload ∧ fb = frameBytes h p

/-- The local variables of a phase are in their ranges (spec/10_state.md R27, R29). -/
def phaseOk (s : State) : Phase → Prop
  | .ready => True
  | .opening _ => s.cfg.role = .master ∧ s.busy = true
  | .transmitting (.bit k i) => isFrame s.fb ∧ k < s.fb.length ∧ i < 8
  | .transmitting _ => isFrame s.fb
  | .receiving .seekLow m => m ≤ maxPayload ∧ s.fb = []
  | .receiving (.seekRise tLow) m => m ≤ maxPayload ∧ s.fb = [] ∧ tLow ≤ s.now
  | .receiving (.seekFall tRise) m => m ≤ maxPayload ∧ s.fb = [] ∧ tRise ≤ s.now
  | .receiving (.bitRise i _) m => m ≤ maxPayload ∧ s.fb.length < m + 2 ∧ i < 8
  | .receiving (.bitFall i _ tRise) m => m ≤ maxPayload ∧ s.fb.length < m + 2 ∧ i < 8 ∧ tRise ≤ s.now
  | .receiving .judge m => m ≤ maxPayload ∧ s.fb.length ≤ m + 2

/-- The invariant of a node. -/
structure NodeInv (s : State) : Prop where
  /-- "`busy` true ⇒ `initialized` true" (spec/10_state.md R25). -/
  busyInitialized : s.busy = true → s.initialized = true
  /-- A turn exists only on an initialized node (spec/10_state.md R23). -/
  turnInitialized : s.writeEnabled = true → s.initialized = true
  /-- "A Master always holds it", from its INIT on (spec/10_state.md R26). -/
  masterHolds : s.cfg.role = .master → s.writeEnabled = s.initialized
  /-- `preamble_sent` only on a Master with an open session (spec/10_state.md R31). -/
  preambleOpen : s.preambleSent = true → s.cfg.role = .master ∧ s.busy = true
  /-- A procedure runs only on an initialized node (spec/60_exceptions.md R190). -/
  runningInitialized : s.phase ≠ .ready → s.initialized = true
  /-- The line output (spec/10_state.md R32). -/
  output : s.out = outputOf s.phase
  /-- The local variables of the procedure in progress (spec/10_state.md R29). -/
  locals : phaseOk s s.phase
  /-- `fb_len` is in 0 to 34 (spec/10_state.md R27). -/
  frameLength : s.fb.length ≤ 34
  /-- Once a command has ended, `STATUS` holds a surfaced code and zeros below the count (spec/30_encoding.md R101;
  spec/60_exceptions.md R186). -/
  statusForm : s.endTick ≠ none → ∃ c n, s.status = statusWord c n ∧ c.code.toNat ≤ 6
  /-- The last command ended in the past (spec/70_reset_and_hazards.md R230). -/
  ended : ∀ e, s.endTick = some e → e ≤ s.now
  /-- The record of lows lies in the past. -/
  lowsPast : ∀ sp ∈ s.lows, sp.start + sp.len ≤ s.now

/-- What the host can see of a node: `STATUS` and `RXBUF`, nothing of BusState (spec/10_state.md R22, R35). -/
def hostView (s : State) : Word × Buffer := (s.status, s.rxbuf)

/-- A host that keeps the source's contract issues READ and WRITE only in state `Busy` (spec/10_state.md R25;
spec/43_driver_commands.md R170): a premise for claims, not a check of the block. -/
def hostKeepsSessions (i : Instr) (s : State) : Prop :=
  match i with
  | .cmdRead _ | .cmdWrite _ _ _ => lifecycle s = .busy
  | _ => True

end Sys2Proof.Machine
end

