-- ==== Sys2Proof/Certificates/Slice0/Obligations.lean ====
section
/-! DEFINITION. The statements for the provers. A result is stated as an equation `exec i s = .next { s with … }` or, where
a command goes on over several steps, as that equation followed by the run of its steps: every field that is not named is
unchanged, so each such statement is also the frame of its instruction. -/

open Sys2Proof Sys2Proof.Machine

namespace Sys2Proof.Claims

/-- `s` at the end of a command: `STATUS` is `w`, the sequencer is `Ready`, the transient frame is gone, and the end is
noted; nothing else differs from `s`. -/
def ended (w : Word) (s : State) : State :=
  { s with status := w, phase := .ready, fb := [], endTick := some s.now }

/-- `s` after a discard inside `Receive(m)`: the event is on the trace, the start search begins again, and nothing else
differs from `s` (spec/42_frame_transport.md R153). -/
def searchAgain (r : Discard) (m : Nat) (s : State) : State :=
  { s with discards := s.discards ++ [(r, s.now)], fb := [], phase := .receiving .seekLow m }

/-- A step of `s` is a step of the block: the configuration is legal and no hardware reset is to come. -/
def plain (s : State) : Prop := legalConfig s.cfg ∧ s.resets = []

/-- The line has level `v` at every tick from `a` up to, not including, `b`. -/
def lineIs (s : State) (v : Level) (a b : Nat) : Prop := ∀ t, a ≤ t → t < b → lineAt s t = v

/-- From the tick `a` up to, not including, `b` the line is low exactly in the spans. -/
def lineShows (s : State) (l : List Span) (a b : Nat) : Prop :=
  ∀ t, a ≤ t → t < b → (lineAt s t = .low ↔ coversAny l t = true)

/-- A line at rest from the tick `a` on carries `SELECT` of length `l` begun at `t0` and then, from `t1` on, the bytes `fb`
and the stop symbol, sent at the bit period of `s`. -/
def frameOnLine (s : State) (t0 l t1 : Nat) (fb : List Byte) : Prop :=
  lineShows s (⟨t0, l⟩ :: waveLows s.cfg t1 (frameSymbols fb)) s.now
    (t1 + waveTicks s.cfg (fb.flatMap byteSymbols) + s.cfg.bitPeriod + stopLimit s.cfg)

/-- The state in which a byte has just been decoded (spec/42_frame_transport.md R144). -/
def afterByte (b : Byte) (m : Nat) (s : State) : State :=
  { s with
    fb := s.fb ++ [b]
    phase := .receiving (if s.fb.length + 1 < m + 2 then .bitRise 7 0 else .judge) m }

/-- The state in which bit `i` has just been decoded (spec/41_bit_codec.md R129). -/
def afterBit (i : Nat) (acc : Byte) (bit : Bool) (m : Nat) (s : State) : State :=
  match i with
  | 0 => afterByte (acc <<< 1 ||| (if bit then 1 else 0)) m s
  | j + 1 => { s with phase := .receiving (.bitRise j (acc <<< 1 ||| (if bit then 1 else 0))) m }

end Sys2Proof.Claims

open Sys2Proof.Claims

/-! ## Host commands -/

/-- INIT, both outcomes of pin setup (spec/43_driver_commands.md R160; spec/60_exceptions.md R182). What INIT does to
the turn and the preamble, and all of the failing case but its status, is the spec's decision (spec/92_eei_decisions.md
D13, D14). -/
def Obligations.InitFollowsPinSetup : Prop :=
  ∀ s : State,
    (s.setupOk = true →
      exec .cmdInit s = .next (ended 0x00000000
        { s with out := .released, initialized := true, busy := false, preambleSent := false,
                 writeEnabled := decide (s.cfg.role = .master) })) ∧
    (s.setupOk = false →
      exec .cmdInit s = .next (ended 0x02000000
        { s with out := .released, initialized := false, busy := false, preambleSent := false,
                 writeEnabled := false }))

/-- Every command but INIT tests `initialized` first, and INIT never answers `NotInitialized` (spec/60_exceptions.md R181,
R190). -/
def Obligations.UninitializedCommandsFail : Prop :=
  ∀ s : State, s.initialized = false →
    (∀ mode, exec (.cmdOpen mode) s = .next (ended 0x01000000 s)) ∧
    exec .cmdClose s = .next (ended 0x01000000 s) ∧
    (∀ maxLen, exec (.cmdRead maxLen) s = .next (ended 0x01000000 s)) ∧
    (∀ addr dir len, (Instr.cmdWrite addr dir len).wf = true →
      exec (.cmdWrite addr dir len) s = .next (ended 0x01000000 s)) ∧
    (∀ t, exec .cmdInit s = .next t → t.status ≠ 0x01000000)

/-- OPEN: `NotInitialized`, `AlreadyOpen`, `UnsupportedMode` in this order, none with any effect; else a Slave's
session in no time, and a Master's after the select and start conditions (spec/43_driver_commands.md R162;
spec/60_exceptions.md R183, R184). The cut of the run into steps is the model's (notes/assumptions/11.md). -/
def Obligations.OpenTakesTheSession : Prop :=
  ∀ (s : State) (mode : Byte),
    (s.initialized = false → exec (.cmdOpen mode) s = .next (ended 0x01000000 s)) ∧
    (s.initialized = true → s.busy = true → exec (.cmdOpen mode) s = .next (ended 0x03000000 s)) ∧
    (s.initialized = true → s.busy = false → mode ≠ 0 → exec (.cmdOpen mode) s = .next (ended 0x04000000 s)) ∧
    (s.initialized = true → s.busy = false → s.cfg.role = .slave →
      exec (.cmdOpen 0) s = .next (ended 0x00000000 { s with busy := true })) ∧
    (s.initialized = true → s.busy = false → s.cfg.role = .master → plain s →
      ∃ t, exec (.cmdOpen 0) s = .next t ∧ t = { s with busy := true, phase := .opening .select } ∧
        run 2 t = .next (ended 0x00000000
          { s with busy := true, preambleSent := true, out := .released,
                   now := s.now + 30 * s.cfg.bitPeriod,
                   lows := s.lows ++ [⟨s.now, 27 * s.cfg.bitPeriod⟩] }))

/-- CLOSE (spec/43_driver_commands.md R164). -/
def Obligations.CloseEndsTheSession : Prop :=
  ∀ s : State,
    (s.initialized = false → exec .cmdClose s = .next (ended 0x01000000 s)) ∧
    (s.initialized = true → s.cfg.role = .master →
      exec .cmdClose s = .next (ended 0x00000000 { s with out := .released, preambleSent := false, busy := false })) ∧
    (s.initialized = true → s.cfg.role = .slave → exec .cmdClose s = .next (ended 0x00000000 { s with busy := false }))

/-- READ on an initialized node enters the start search with the limit clamped and the preamble given up
(spec/43_driver_commands.md R166), and on a line that stays high it returns `Timeout` after `T_TIMEOUT` ticks, nothing
else changed (spec/60_exceptions.md R187; spec/42_frame_transport.md R152). The cut of the run into steps is the model's (notes/assumptions/11.md). -/
def Obligations.ReadOfAnIdleLineTimesOut : Prop :=
  ∀ (s : State) (maxLen : Byte), s.initialized = true →
    ∃ t, exec (.cmdRead maxLen) s = .next t ∧
      t = { s with preambleSent := false, fb := [], phase := .receiving .seekLow (min maxLen.toNat 32) } ∧
      (plain s → lineIs s .high s.now (s.now + s.cfg.tTimeout) →
        run 1 t = .next (ended 0x06000000 { s with preambleSent := false, now := s.now + s.cfg.tTimeout }))

/-- READ receives a frame (spec/42_frame_transport.md R155, R141; spec/70_reset_and_hazards.md R216, R217). The select
low, begun at `t0` and lasting `l` ticks, is long enough from the first sample on; the start high up to `t1` is long
enough; neither outlasts `T_TIMEOUT`; then come the bytes of a frame with header `h` and payload `p` and the stop
symbol, at the receiver's bit period. On a Master, or on the Slave the header names, READ returns `Ok` with the
payload, at the fall after the last bit if the frame fills the limit and `STOP_LIMIT` ticks after the rise of the stop
symbol otherwise; a Slave has the turn if the direction bit is 0. The cut of the run into steps is the model's (notes/assumptions/11.md). What lies in `RXBUF` beyond the payload is free (5.md). -/
def Obligations.ReadReceivesAFrame : Prop :=
  ∀ (s : State) (maxLen : Byte) (t0 l t1 : Nat) (h : Byte) (p : List Byte),
    plain s → s.initialized = true →
    t0 < s.now + s.cfg.tTimeout → s.now < t0 + l →
    t0 + l < max s.now t0 + s.cfg.tTimeout →
    s.cfg.selectMinX10 * s.cfg.bitPeriod ≤ 10 * (t0 + l - max s.now t0) →
    t0 + l < t1 → 24 * s.cfg.bitPeriod ≤ 10 * (t1 - (t0 + l)) → t1 < t0 + l + s.cfg.tTimeout →
    p.length ≤ min maxLen.toNat 32 →
    (s.cfg.role = .slave → headerAddr h = s.cfg.ownAddress) →
    frameOnLine s t0 l t1 (frameBytes h p) →
    ∃ (t : State) (rx : Buffer) (k : Nat),
      exec (.cmdRead maxLen) s = .next t ∧
      (∀ i, i < 32 → i < p.length → rx[i]? = p[i]?) ∧
      run k t = .next (ended (statusWord .ok p.length)
        { s with
          preambleSent := false
          rxbuf := rx
          draws := s.draws + 1
          writeEnabled := if s.cfg.role = .slave ∧ headerDir h = 0 then true else s.writeEnabled
          now := t1 + waveTicks s.cfg ((frameBytes h p).flatMap byteSymbols) +
            (if p.length = min maxLen.toNat 32 then 0 else s.cfg.bitPeriod + stopLimit s.cfg) })

/-- WRITE on an initialized Slave without the turn fails and touches nothing; a term with `len > 32` is refused
(spec/60_exceptions.md R185; spec/30_encoding.md R102). The refusal is the model's (notes/assumptions/15.md). -/
def Obligations.WriteNeedsTheTurn : Prop :=
  ∀ (s : State) (addr : Addr) (dir : BitVec 1) (len : Byte),
    (len.toNat ≤ 32 → s.initialized = true → s.cfg.role = .slave → s.writeEnabled = false →
      exec (.cmdWrite addr dir len) s = .next (ended 0x05000000 s)) ∧
    (32 < len.toNat → exec (.cmdWrite addr dir len) s = .refused .reservedCommand)

/-- WRITE puts one whole frame on the line (spec/43_driver_commands.md R168; spec/42_frame_transport.md R138, R139;
spec/30_encoding.md R86). The turn is taken before the first symbol; then, one symbol a step, the node sends the
preamble (unless a Master's OPEN has), header, payload, checksum and stop symbol, and returns `Ok(len)` with a released
line. The cut of the run into steps is the model's (notes/assumptions/11.md). `lows` is the
model's record of the waveform (12.md). -/
def Obligations.WriteSendsOneFrame : Prop :=
  ∀ (s : State) (addr : Addr) (dir : BitVec 1) (len : Byte),
    plain s → s.initialized = true → len.toNat ≤ 32 →
    (s.cfg.role = .slave → s.writeEnabled = true) →
    ∃ t, exec (.cmdWrite addr dir len) s = .next t ∧
      t.writeEnabled = decide (s.cfg.role = .master ∧ s.writeEnabled = true) ∧ t.lows = s.lows ∧ t.now = s.now ∧
      ∀ fb syms, fb = frameBytes (match s.cfg.role with
          | .master => headerByte addr dir
          | .slave => headerByte s.cfg.ownAddress 1) (s.txbuf.toList.take len.toNat) →
        syms = (if s.cfg.role = .master ∧ s.preambleSent = true then [] else [Instr.symSelect, Instr.symStart]) ++
          frameSymbols fb →
        run syms.length t = .next (ended (statusWord .ok len.toNat)
          { s with
            writeEnabled := decide (s.cfg.role = .master ∧ s.writeEnabled = true)
            preambleSent := match s.cfg.role with
              | .master => false
              | .slave => s.preambleSent
            out := .released
            now := s.now + waveTicks s.cfg syms
            lows := s.lows ++ waveLows s.cfg s.now syms })

/-! ## Line symbols -/

/-- `SELECT` and `START`, and the preamble they make (spec/42_frame_transport.md R136). `lows` is the model's record of
the waveform (notes/assumptions/12.md). -/
def Obligations.PreambleSymbols : Prop :=
  ∀ s : State,
    exec .symSelect s = .next
      { s with out := .driveLow, now := s.now + 27 * s.cfg.bitPeriod,
               lows := s.lows ++ [⟨s.now, 27 * s.cfg.bitPeriod⟩] } ∧
    exec .symStart s = .next { s with out := .released, now := s.now + 3 * s.cfg.bitPeriod } ∧
    ∃ t, exec .symSelect s = .next t ∧
      exec .symStart t = .next
        { s with out := .released, now := s.now + 30 * s.cfg.bitPeriod,
                 lows := s.lows ++ [⟨s.now, 27 * s.cfg.bitPeriod⟩] }

/-- `BIT0` and `BIT1` (spec/41_bit_codec.md R121, R122). `lows` is the model's record of the waveform
(notes/assumptions/12.md). -/
def Obligations.BitSymbols : Prop :=
  ∀ s : State,
    exec .symBit0 s = .next
      { s with out := .released, now := s.now + 2 * s.cfg.bitPeriod, lows := s.lows ++ [⟨s.now, s.cfg.bitPeriod⟩] } ∧
    exec .symBit1 s = .next
      { s with out := .released, now := s.now + 3 * s.cfg.bitPeriod, lows := s.lows ++ [⟨s.now, s.cfg.bitPeriod⟩] }

/-- `STOP` (spec/42_frame_transport.md R137). `lows` is the model's record of the waveform (notes/assumptions/12.md).
-/
def Obligations.StopSymbol : Prop :=
  ∀ s : State,
    exec .symStop s = .next
      { s with out := .released, now := s.now + 4 * s.cfg.bitPeriod, lows := s.lows ++ [⟨s.now, s.cfg.bitPeriod⟩] }

/-! ## Frames at a receiver -/

/-- A frame that passes run 3, 4 and 5 is delivered, header and checksum stripped, and READ ends with `Ok(n)`; a read
request gives a Slave the turn, a data frame leaves it as it was, and a Master never changes it
(spec/42_frame_transport.md R150, R151). -/
def Obligations.AcceptedFramesAreDelivered : Prop :=
  ∀ (s : State) (a : Addr), 2 ≤ s.fb.length → (s.cfg.role = .slave → a = s.cfg.ownAddress) →
    s.fb.getLast? = some (checksum s.fb.dropLast) →
    ∃ rx : Buffer,
      (∀ i, i < 32 → i < s.fb.length - 2 → rx[i]? = s.fb[i + 1]?) ∧
      exec (.frameRdreq a) s = .next (ended (statusWord .ok (s.fb.length - 2))
        { s with rxbuf := rx, draws := s.draws + 1,
                 writeEnabled := decide (s.cfg.role = .slave) || s.writeEnabled }) ∧
      exec (.frameData a) s = .next (ended (statusWord .ok (s.fb.length - 2))
        { s with rxbuf := rx, draws := s.draws + 1 })

/-- Steps 3, 4 and 5 in their order: the first check that fails names the discard, and the start search begins again
with nothing carried over (spec/42_frame_transport.md R146, R148, R149; spec/60_exceptions.md R192). A frame of no
bytes has no header to decode and is malformed as well. The trace of discards is the model's record
(notes/assumptions/12.md). -/
def Obligations.RejectedFramesAreDiscarded : Prop :=
  ∀ (s : State) (p : RxPos) (m : Nat) (a : Addr) (i : Instr), s.phase = .receiving p m →
    i = .frameRdreq a ∨ i = .frameData a →
    (plain s → p = .judge → s.fb = [] → step s = .next (searchAgain .malformed m s)) ∧
    (s.fb.length < 2 → exec i s = .next (searchAgain .malformed m s)) ∧
    (2 ≤ s.fb.length → s.cfg.role = .slave → a ≠ s.cfg.ownAddress →
      exec i s = .next (searchAgain .notAddressedToMe m s)) ∧
    (2 ≤ s.fb.length → (s.cfg.role = .slave → a = s.cfg.ownAddress) →
      s.fb.getLast? ≠ some (checksum s.fb.dropLast) →
      exec i s = .next (searchAgain .checksumMismatch m s))

/-- READ ends only with a delivered frame or with `Timeout`, and what it delivers has passed every check
(spec/42_frame_transport.md R141, R156; spec/20_memory.md R63). -/
def Obligations.ReceiveEndsOkOrTimeout : Prop :=
  ∀ (s t : State) (p : RxPos) (m : Nat), plain s → s.phase = .receiving p m → step s = .next t →
    (t.phase = .ready ∧ t.status = 0x06000000 ∧ t.rxbuf = s.rxbuf ∧ t.writeEnabled = s.writeEnabled) ∨
    (t.phase = .ready ∧ p = .judge ∧ t.status = statusWord .ok (s.fb.length - 2) ∧
      ∃ h rest, s.fb = h :: rest ∧ rest ≠ [] ∧
        (s.cfg.role = .slave → headerAddr h = s.cfg.ownAddress) ∧
        s.fb.getLast? = some (checksum s.fb.dropLast) ∧
        ∀ i, i < 32 → i < s.fb.length - 2 → t.rxbuf[i]? = s.fb[i + 1]?) ∨
    ((∃ q, t.phase = .receiving q m) ∧ t.status = s.status ∧ t.rxbuf = s.rxbuf ∧ t.writeEnabled = s.writeEnabled)

/-- The single-byte corruption law (spec/42_frame_transport.md R157): a frame whose checksum holds, with exactly one
byte changed, is discarded. It is the spec's own inference from R135, R148 and R149. -/
def Obligations.OneWrongByteIsNeverDelivered : Prop :=
  ∀ (s : State) (p : RxPos) (m : Nat) (fb : List Byte) (k : Nat) (b : Byte), s.phase = .receiving p m →
    2 ≤ fb.length → fb.getLast? = some (checksum fb.dropLast) → k < fb.length → fb[k]? ≠ some b →
    s.fb = fb.set k b →
    ∃ h rest r, s.fb = h :: rest ∧ exec (decodeHdr h) s = .next (searchAgain r m s)

/-! ## The line adapter and the decoder -/

/-- `wait_until` (spec/40_line_adapter.md R115): the least tick of the window whose sample is `v`, or the end of the window
when there is none. -/
def Obligations.WaitUntilFindsTheLeastTick : Prop :=
  ∀ (s : State) (v : Level) (limit : Nat),
    (∀ t, waitUntil s v limit = .found t ↔
      (s.now ≤ t ∧ t < s.now + limit ∧ lineAt s t = v ∧
        ∀ u, s.now ≤ u → u < s.now + limit → lineAt s u = v → t ≤ u)) ∧
    (∀ t, waitUntil s v limit = .expired t ↔
      (t = s.now + limit ∧ ∀ u, s.now ≤ u → u < s.now + limit → lineAt s u ≠ v))

/-- DecodeBit, both phases, and what DecodeByte makes of its result (spec/41_bit_codec.md R125, R126, R129): the sync
low lasts until `a`, however long below `T_TIMEOUT`, and the high phase `d` ticks. The cut of the run into steps is the model's (notes/assumptions/11.md). -/
def Obligations.DecodeBitMeasuresTheHighPhase : Prop :=
  ∀ (s : State) (i : Nat) (acc : Byte) (m a d : Nat), plain s → s.phase = .receiving (.bitRise i acc) m →
    (lineIs s .low s.now (s.now + s.cfg.tTimeout) →
      run 1 s = .next (ended 0x06000000 { s with now := s.now + s.cfg.tTimeout })) ∧
    (s.now ≤ a → a < s.now + s.cfg.tTimeout → lineIs s .low s.now a → 1 ≤ d → lineIs s .high a (a + d) →
      (10 * d ≤ 12 * s.cfg.bitPeriod → lineAt s (a + d) = .low →
        run 2 s = .next (afterBit i acc false m { s with now := a + d })) ∧
      (12 * s.cfg.bitPeriod < 10 * d → 10 * d ≤ 24 * s.cfg.bitPeriod → lineAt s (a + d) = .low →
        run 2 s = .next (afterBit i acc true m { s with now := a + d })) ∧
      (24 * s.cfg.bitPeriod < 10 * d →
        run 2 s = .next
          { s with now := a + (24 * s.cfg.bitPeriod / 10 + 1), phase := .receiving .judge m }))

/-- Tolerance of ±20% (spec/41_bit_codec.md R127): a high phase within 20% of nominal is read as the bit that was sent.
It is the spec's own inference from R126. -/
def Obligations.TwentyPercentIsTolerated : Prop :=
  ∀ (s : State) (i : Nat) (acc : Byte) (m a d : Nat) (v : Bool), plain s → s.phase = .receiving (.bitRise i acc) m →
    s.now ≤ a → a < s.now + s.cfg.tTimeout → lineIs s .low s.now a → lineIs s .high a (a + d) →
    lineAt s (a + d) = .low →
    (v = false → 8 * s.cfg.bitPeriod ≤ 10 * d ∧ 10 * d ≤ 12 * s.cfg.bitPeriod) →
    (v = true → 16 * s.cfg.bitPeriod ≤ 10 * d ∧ 10 * d ≤ 24 * s.cfg.bitPeriod) →
    run 2 s = .next (afterBit i acc v m { s with now := a + d })

/-- The byte round trip (spec/41_bit_codec.md R131): a line that carries the waveform of a byte followed by a low pulse
is decoded as that byte. It is the spec's own inference. -/
def Obligations.DecodeByteInvertsEncodeByte : Prop :=
  ∀ (s : State) (m : Nat) (b : Byte), plain s → s.phase = .receiving (.bitRise 7 0) m →
    lineShows s (waveLows s.cfg s.now (byteSymbols b)) s.now (s.now + waveTicks s.cfg (byteSymbols b)) →
    lineAt s (s.now + waveTicks s.cfg (byteSymbols b)) = .low →
    run 16 s = .next (afterByte b m { s with now := s.now + waveTicks s.cfg (byteSymbols b) })

/-- Step 1, the start search (spec/42_frame_transport.md R143): the first low begins at `a` and ends at `b`, the high
after it ends at `c`. The cut of the run into steps is the model's (notes/assumptions/11.md).
-/
def Obligations.StartSearch : Prop :=
  ∀ (s : State) (m a b c : Nat), plain s → s.phase = .receiving .seekLow m →
    (lineIs s .high s.now (s.now + s.cfg.tTimeout) →
      run 1 s = .next (ended 0x06000000 { s with now := s.now + s.cfg.tTimeout })) ∧
    (s.now ≤ a → a < s.now + s.cfg.tTimeout → lineIs s .high s.now a →
      (lineIs s .low a (a + s.cfg.tTimeout) →
        run 2 s = .next (ended 0x06000000 { s with now := a + s.cfg.tTimeout })) ∧
      (a < b → b < a + s.cfg.tTimeout → lineIs s .low a b →
        (10 * (b - a) < s.cfg.selectMinX10 * s.cfg.bitPeriod → lineAt s b = .high →
          run 2 s = .next (searchAgain .noise m { s with now := b })) ∧
        (s.cfg.selectMinX10 * s.cfg.bitPeriod ≤ 10 * (b - a) →
          (lineIs s .high b (b + s.cfg.tTimeout) →
            run 3 s = .next (ended 0x06000000 { s with now := b + s.cfg.tTimeout })) ∧
          (b < c → c < b + s.cfg.tTimeout → lineIs s .high b c → lineAt s c = .low →
            (10 * (c - b) < 24 * s.cfg.bitPeriod →
              run 3 s = .next (searchAgain .noise m { s with now := c })) ∧
            (24 * s.cfg.bitPeriod ≤ 10 * (c - b) →
              run 3 s = .next
                { s with now := c, fb := [], phase := .receiving (.bitRise 7 0) m })))))

/-- READ need not end (spec/70_reset_and_hazards.md R221; spec/42_frame_transport.md R152): at every legal configuration
there is one line that never stays still for `T_TIMEOUT`, on which a READ is still searching after every number of steps. So
no claim that READ ends holds without a premise about the line. It is the spec's own inference. -/
def Obligations.ReadNeedNotEnd : Prop :=
  ∀ (c : NodeConfig) (m : Nat), legalConfig c →
    ∃ s : State, s.cfg = c ∧ plain s ∧ s.phase = .receiving .seekLow m ∧
      (∀ v x, ∃ y, x ≤ y ∧ y < x + c.tTimeout ∧ lineAt s y = v) ∧
      ∀ k, ∃ t, run k s = .next t ∧ ∃ q, t.phase = .receiving q m

/-! ## Encodings -/

/-- Decode and encode agree on every well-formed instruction (spec/30_encoding.md R80, R88, R95). -/
def Obligations.DecodeOfEncode : Prop :=
  ∀ i : Instr, i.wf = true → decode (encode i) = .ok i

/-- Every code word that decodes is the encoding of the well-formed instruction it decodes to. -/
def Obligations.EncodeOfDecode : Prop :=
  ∀ (c : CodeWord) (i : Instr), decode c = .ok i → i.wf = true ∧ encode i = c

/-- A command word is refused exactly when it matches no row of the opcode table, or the WRITE row with `len > 32`
(spec/30_encoding.md R107, R102). -/
def Obligations.ReservedWordsAreThoseOfTheTable : Prop :=
  ∀ w : Word, (∃ e, decodeCmd w = .error e) ↔
    ((w &&& 0xFFFFFFFF#32 ≠ 0x01000000#32 ∧ w &&& 0xFF00FFFF#32 ≠ 0x02000000#32 ∧
      w &&& 0xFFFFFFFF#32 ≠ 0x03000000#32 ∧ w &&& 0xFF00FFFF#32 ≠ 0x04000000#32 ∧
      w &&& 0xFF0000FF#32 ≠ 0x05000000#32) ∨
    (w &&& 0xFF0000FF#32 = 0x05000000#32 ∧ 32 < (w >>> 16 &&& 0xFF#32).toNat))

/-- Words written out from the spec (spec/95_test_vectors.md V120 to V129; spec/30_encoding.md R80, R88). That a
symbol's first character is the most significant bit of its number is the model's choice (notes/assumptions/8.md). -/
def Obligations.WordsOfTheSpecDecode : Prop :=
  decodeTableWord 32 0x01000000 = some .cmdInit ∧ decodeTableWord 32 0x02050000 = some (.cmdOpen 5) ∧
  decodeTableWord 32 0x03000000 = some .cmdClose ∧ decodeTableWord 32 0x04C80000 = some (.cmdRead 200) ∧
  decodeTableWord 32 0x05050300 = some (.cmdWrite 1 1 5) ∧ decodeTableWord 32 0x05210000 = none ∧
  decodeTableWord 27 0 = some .symSelect ∧ decodeTableWord 3 7 = some .symStart ∧
  decodeTableWord 2 1 = some .symBit0 ∧ decodeTableWord 3 3 = some .symBit1 ∧ decodeTableWord 4 7 = some .symStop ∧
  decodeTableWord 8 0x02 = some (.frameRdreq 1) ∧ decodeTableWord 8 0xFF = some (.frameData 0x7F)

/-- The fields of the status word (spec/30_encoding.md R101): `CODE`, `COUNT` and zeros, and the codes of
spec/60_exceptions.md R180. -/
def Obligations.StatusWordFields : Prop :=
  (∀ c n, statusWord c n >>> 24 = c.code.setWidth 32 ∧ (statusWord c n >>> 16 &&& 0xFF#32) = (BitVec.ofNat 8 n).setWidth 32 ∧
    statusWord c n &&& 0xFFFF#32 = 0) ∧
  [StatusCode.ok, .notInitialized, .notReady, .alreadyOpen, .unsupportedMode, .writeNotPermitted, .timeout, .malformed,
    .checksumMismatch, .notAddressedToMe].map (fun c => c.code.toNat) = List.range 10

/-- How long a frame lasts with its preamble (spec/30_encoding.md R86; spec/70_reset_and_hazards.md R230). -/
def Obligations.FrameDuration : Prop :=
  ∀ (c : NodeConfig) (h : Byte) (p : List Byte),
    waveTicks c (preambleSymbols ++ frameSymbols (frameBytes h p)) =
      c.bitPeriod * (30 + 16 * (p.length + 2) + onesOf (frameBytes h p) + 4)

/-- The checksum is the sum of the bytes modulo 256, whatever their order (spec/42_frame_transport.md R135). -/
def Obligations.ChecksumIsTheSum : Prop :=
  ∀ l l' : List Byte, (checksum l).toNat = (l.map BitVec.toNat).sum % 256 ∧ (l.Perm l' → checksum l = checksum l')

/-! ## The sequencer -/

/-- A step runs the decoded instruction. In `Ready` the host's command word is decoded and its instruction runs at the
first tick after the one in which the previous command ended (spec/70_reset_and_hazards.md R230); a word that does not
decode is refused (spec/30_encoding.md R102). Inside Transmit the symbol of the position runs and the position moves on. At
the end of Receive's byte loop the header is decoded and its frame is judged. The cut of a run into steps is the model's
(notes/assumptions/11.md), as is the refusal (15.md). -/
def Obligations.StepRunsTheDecodedInstruction : Prop :=
  ∀ s : State, plain s →
    (∀ w rest i, s.phase = .ready → s.inputs = .issue w :: rest → decodeCmd w = .ok i →
      step s = exec i { s with cmd := w, inputs := rest, now := match s.endTick with
        | none => s.now
        | some e => max s.now (e + 1) }) ∧
    (∀ w rest e, s.phase = .ready → s.inputs = .issue w :: rest → decodeCmd w = .error e →
      step s = .refused .reservedCommand) ∧
    (∀ p, s.phase = .opening p → step s = onNext afterSymbol (exec (preambleSymbol p) s)) ∧
    (∀ p, s.phase = .transmitting p → step s = onNext afterSymbol (exec (txSymbol s.fb p) s)) ∧
    (∀ m h rest, s.phase = .receiving .judge m → s.fb = h :: rest → step s = exec (decodeHdr h) s)

/-- What the outside world does to a node that is `Ready`: time passes, a byte of `TXBUF` is written, pin setup changes
(spec/10_state.md R35; spec/40_line_adapter.md R116; spec/70_reset_and_hazards.md R232). The form of these inputs is
the model's choice (notes/assumptions/3.md, 4.md). -/
def Obligations.InputsBetweenCommands : Prop :=
  ∀ s : State, plain s → s.phase = .ready →
    (s.inputs = [] → step s = .next { s with now := s.now + 1 }) ∧
    (∀ n rest, s.inputs = .wait n :: rest → step s = .next { s with now := s.now + n, inputs := rest }) ∧
    (∀ (i : Fin 32) v rest, s.inputs = .writeTx i v :: rest →
      ∃ tx, step s = .next { s with txbuf := tx, inputs := rest } ∧
        ∀ j : Fin 32, tx[j] = if j = i then v else s.txbuf[j]) ∧
    (∀ b rest, s.inputs = .pinSetup b :: rest → step s = .next { s with setupOk := b, inputs := rest })

/-- Every well-formed instruction completes in every state (spec/60_exceptions.md R194: "No operation is fatal"), and a
step is refused only for a reserved word or an illegal configuration. The two refusals are the model's
(notes/assumptions/15.md). -/
def Obligations.NothingIsFatal : Prop :=
  (∀ (i : Instr) (s : State), i.wf = true → ∃ t, exec i s = .next t) ∧
  (∀ s : State, legalConfig s.cfg → (∀ w rest, s.inputs = .issue w :: rest → ∃ i, decodeCmd w = .ok i) →
    ∃ t, step s = .next t)

/-! ## The whole machine -/

/-- Every step keeps the invariant of a node (spec/10_state.md R24 to R27, R31, R32). -/
def Obligations.StepKeepsTheInvariant : Prop :=
  ∀ s t : State, NodeInv s → step s = .next t → NodeInv t

/-- The invariant holds right after reset, at every configuration. -/
def Obligations.ResetHasTheInvariant : Prop :=
  ∀ c : NodeConfig, NodeInv (State.resetOf c)

/-- What reset leaves, for the state the spec gives a reset value (spec/10_state.md R36). The reference node is the
model's choice (notes/assumptions/1.md). -/
def Obligations.ResetValues : Prop :=
  ∀ c : NodeConfig, (State.resetOf c).initialized = false ∧ (State.resetOf c).busy = false ∧
    (State.resetOf c).writeEnabled = false ∧ (State.resetOf c).preambleSent = false ∧
    (State.resetOf c).out = .released ∧ (State.resetOf c).phase = .ready ∧ (State.resetOf c).cfg = c ∧
    lifecycle (State.resetOf c) = .uninitialized ∧ State.reset = State.resetOf NodeConfig.reference

/-- A hardware reset at tick `r` (spec/70_reset_and_hazards.md R210, R211): at once when it is due, else in the middle
of the step that reaches it. The four flags are 0, the output is released, the sequencer is `Ready`, the configuration
is kept, no status is given to the command in progress (the last command's end is forgotten), and what the node drives
low on the line stops at `r`. A reset in the very tick in which a step ends wins by the model's choice
(notes/assumptions/10.md). -/
def Obligations.HardwareResetEndsEverything : Prop :=
  ∀ (s u : State) (r : Nat) (rest : List Nat), legalConfig s.cfg → s.resets = r :: rest →
    (∀ sp ∈ s.lows, sp.start + sp.len ≤ s.now) →
    ((r ≤ s.now ∧ u = s) ∨ (s.now < r ∧ r ≤ u.now ∧ stepCore s = .next u) →
      ∃ t, step s = .next t ∧
        t.initialized = false ∧ t.busy = false ∧ t.writeEnabled = false ∧ t.preambleSent = false ∧
        t.out = .released ∧ t.phase = .ready ∧ t.cfg = s.cfg ∧ t.endTick = none ∧ t.resets = rest ∧
        t.now = max s.now r ∧ t.discards = s.discards ∧
        ∀ x, drove t x = true ↔ (x < t.now ∧ drove u x = true)) ∧
    (u.now < r → stepCore s = .next u → s.now ≤ u.now → step s = .next u)

/-- No step changes the configuration (spec/10_state.md R20). -/
def Obligations.ConfigurationIsImmutable : Prop :=
  ∀ s t : State, step s = .next t → t.cfg = s.cfg

/-- The turn (spec/43_driver_commands.md R169): a Slave gets it only by accepting a read request, gives it up only in a
WRITE, an INIT or a hardware reset, and a WRITE with it is accepted and takes it, so that one read request grants one
response frame. -/
def Obligations.TheTurnComesFromAReadRequest : Prop :=
  ∀ s : State, s.cfg.role = .slave →
    (∀ t, step s = .next t → s.writeEnabled = false → t.writeEnabled = true →
      ∃ m h rest, s.phase = .receiving .judge m ∧ s.fb = h :: rest ∧ rest ≠ [] ∧ headerDir h = 0 ∧
        headerAddr h = s.cfg.ownAddress ∧ s.fb.getLast? = some (checksum s.fb.dropLast)) ∧
    (∀ t, step s = .next t → s.writeEnabled = true → t.writeEnabled = false →
      (∃ w rest, s.phase = .ready ∧ s.inputs = .issue w :: rest ∧
        (decodeCmd w = .ok .cmdInit ∨ ∃ a d l, decodeCmd w = .ok (.cmdWrite a d l))) ∨
      ∃ r rest, s.resets = r :: rest ∧ r ≤ t.now) ∧
    (∀ a d l, (Instr.cmdWrite a d l).wf = true → s.initialized = true → s.writeEnabled = true →
      ∃ t, exec (.cmdWrite a d l) s = .next t ∧ t.writeEnabled = false ∧
        t.phase = .transmitting (.preamble .select) ∧ t.lows = s.lows ∧ t.now = s.now)

/-- The lifecycle (spec/43_driver_commands.md R171): only INIT changes whether a node is initialized, only OPEN with mode 0
opens a session, only CLOSE and INIT end one. -/
def Obligations.LifecycleTransitions : Prop :=
  ∀ (i : Instr) (s t : State), exec i s = .next t →
    (t.initialized ≠ s.initialized → i = .cmdInit) ∧
    (s.busy = false → t.busy = true → i = .cmdOpen 0 ∧ lifecycle s = .idle) ∧
    (s.busy = true → t.busy = false → i = .cmdInit ∨ i = .cmdClose)

/-- A Master's `write_enabled` has no effect on any command (spec/10_state.md R26): INIT overwrites it, and every other
instruction carries it along. -/
def Obligations.MasterIgnoresTheTurn : Prop :=
  ∀ (i : Instr) (s : State) (b : Bool), s.cfg.role = .master →
    (i = .cmdInit → exec i { s with writeEnabled := b } = exec i s) ∧
    (i ≠ .cmdInit → exec i { s with writeEnabled := b } = onNext (fun t => { t with writeEnabled := b }) (exec i s))

/-- `addr` and `dir` of a Slave's WRITE are ignored (spec/30_encoding.md R100), and READ clamps its limit at 32 (R99). -/
def Obligations.IgnoredOperands : Prop :=
  (∀ (s : State) (a a' : Addr) (d d' : BitVec 1) (l : Byte), s.cfg.role = .slave →
    exec (.cmdWrite a d l) s = exec (.cmdWrite a' d' l) s) ∧
  (∀ (s : State) (m : Byte), 32 ≤ m.toNat → exec (.cmdRead m) s = exec (.cmdRead 32) s)

/-- A node that is not inside READ does not look at the line (spec/10_state.md R34; spec/20_memory.md R53): whatever the
line does, its step is the same. -/
def Obligations.OnlyReadObservesTheLine : Prop :=
  ∀ (s : State) (pl el eh : Signal), (∀ p m, s.phase ≠ .receiving p m) →
    step { s with peersLow := pl, envLow := el, envHigh := eh } =
      onNext (fun t => { t with peersLow := pl, envLow := el, envHigh := eh }) (step s)

/-- The clock never goes back and the past of the line is never rewritten (spec/40_line_adapter.md R110, R113). -/
def Obligations.ThePastIsFixed : Prop :=
  ∀ s t : State, (∀ sp ∈ s.lows, sp.start + sp.len ≤ s.now) → step s = .next t →
    s.now ≤ t.now ∧ ∀ x, x < s.now → drove t x = drove s x

/-- Only the five symbols take time on the line or put a low on it, and only `SELECT` leaves the output driving low
(spec/40_line_adapter.md R110; spec/42_frame_transport.md R141; spec/60_exceptions.md R193): among the instructions, and
among the steps of a node that is `Ready` or in READ, whose waits are no instructions. `lows` is the model's record
(notes/assumptions/12.md). What a hardware reset does is another statement. -/
def Obligations.OnlySymbolsDriveTheLine : Prop :=
  (∀ (i : Instr) (s t : State), exec i s = .next t →
    (t.lows ≠ s.lows ∨ t.now ≠ s.now →
      i = .symSelect ∨ i = .symStart ∨ i = .symBit0 ∨ i = .symBit1 ∨ i = .symStop) ∧
    (t.out = .driveLow → s.out = .driveLow ∨ i = .symSelect)) ∧
  (∀ s t : State, plain s → (s.phase = .ready ∨ ∃ p m, s.phase = .receiving p m) → step s = .next t →
    t.lows = s.lows ∧ (t.out = .driveLow → s.out = .driveLow))

/-- One line for all nodes (spec/20_memory.md R50, R51, R71). At every tick that a step of READ waits through, the level
that the node samples is LOW exactly when the node has driven low, or another node or the environment holds the line low
and `env_high` does not; while a symbol pulls low, the line is low for the node itself unless `env_high` holds it; and on a
bus whose nodes were given each other's lows, every node has seen, and every READ has sampled, the level of the one line:
the wired-AND of all outputs and the environment. The form of a bus is the model's (notes/assumptions/13.md), as is the
inclusion of `env_high` (14.md). -/
def Obligations.AllNodesSeeOneLine : Prop :=
  (∀ (s u : State) (p : RxPos) (m x : Nat), NodeInv s → plain s → s.phase = .receiving p m → step s = .next u →
    s.now ≤ x → x < u.now → lineAt s x = levelSeen u x) ∧
  (∀ (i : Instr) (s u : State) (x : Nat), i = .symSelect ∨ i = .symBit0 ∨ i = .symBit1 ∨ i = .symStop →
    exec i s = .next u → s.now ≤ x → x < s.now + s.cfg.bitPeriod → s.envHigh.holds x = false →
    levelSeen u x = .low) ∧
  (∀ (b : Bus) (h x : Nat) (u : State), b.AgreesBefore h → x < h → u ∈ b.nodes → levelSeen u x = b.lineAt x) ∧
  (∀ (b : Bus) (h x : Nat) (s u : State) (p : RxPos) (m : Nat), b.AgreesBefore h → x < h → u ∈ b.nodes → NodeInv s →
    plain s → s.phase = .receiving p m → step s = .next u → s.now ≤ x → x < u.now → lineAt s x = b.lineAt x)
end

