-- ==== Sys2Proof/Laws/Decode.lean ====
section
/-! SUPPORT. The fields of a command word and of a header, read back from the word they make up. -/

namespace Sys2Proof

/-- Bit by bit, which field of a command word a bit belongs to. -/
theorem cmdWord_bit (op a : Byte) (ad : Addr) (d : BitVec 1) (k : Nat) :
    (cmdWord op a ad d).getLsbD k =
      if k < 8 then false
      else if k < 9 then d.getLsbD (k - 8)
      else if k < 16 then ad.getLsbD (k - 9)
      else if k < 24 then a.getLsbD (k - 16)
      else op.getLsbD (k - 24) := by
  rw [show (cmdWord op a ad d).getLsbD k = ((op ++ a ++ (ad ++ d) : BitVec (8 + 8 + (7 + 1))) ++ (0#8)).getLsbD k
      from rfl,
    BitVec.getLsbD_append, BitVec.getLsbD_append, BitVec.getLsbD_append,
    show (op ++ a : BitVec (8 + 8)).getLsbD (k - 8 - (7 + 1)) =
      if k - 8 - (7 + 1) < 8 then a.getLsbD (k - 8 - (7 + 1)) else op.getLsbD (k - 8 - (7 + 1) - 8)
      from BitVec.getLsbD_append]
  by_cases h1 : k < 8
  · simp [h1]
  · by_cases h2 : k < 9
    · simp [h1, h2, show k - 8 < 8 by omega, show k - 8 < 1 by omega]
    · by_cases h3 : k < 16
      · simp [h1, h2, h3, show k - 8 < 8 by omega, show ¬ k - 8 < 1 by omega, show k - 8 - 1 = k - 9 by omega]
      · by_cases h4 : k < 24
        · simp [h1, h2, h3, h4, show ¬ k - 8 < 8 by omega, show k - 8 - 8 = k - 16 by omega,
            show k - 16 < 8 by omega]
        · simp [h1, h2, h3, h4, show ¬ k - 8 < 8 by omega, show ¬ k - 8 - 8 < 8 by omega,
            show k - 8 - 8 - 8 = k - 24 by omega]

theorem fieldOp_cmdWord (op a : Byte) (ad : Addr) (d : BitVec 1) : fieldOp (cmdWord op a ad d) = op := by
  apply BitVec.eq_of_getLsbD_eq
  intro i hi
  rw [fieldOp, BitVec.getLsbD_extractLsb', cmdWord_bit, if_neg (by omega), if_neg (by omega), if_neg (by omega),
    if_neg (by omega), show 24 + i - 24 = i by omega]
  simp [hi]

theorem fieldA_cmdWord (op a : Byte) (ad : Addr) (d : BitVec 1) : fieldA (cmdWord op a ad d) = a := by
  apply BitVec.eq_of_getLsbD_eq
  intro i hi
  rw [fieldA, BitVec.getLsbD_extractLsb', cmdWord_bit, if_neg (by omega), if_neg (by omega), if_neg (by omega),
    if_pos (by omega), show 16 + i - 16 = i by omega]
  simp [hi]

theorem fieldAddr_cmdWord (op a : Byte) (ad : Addr) (d : BitVec 1) : fieldAddr (cmdWord op a ad d) = ad := by
  apply BitVec.eq_of_getLsbD_eq
  intro i hi
  rw [fieldAddr, BitVec.getLsbD_extractLsb', cmdWord_bit, if_neg (by omega), if_neg (by omega), if_pos (by omega),
    show 9 + i - 9 = i by omega]
  simp [hi]

theorem fieldDir_cmdWord (op a : Byte) (ad : Addr) (d : BitVec 1) : fieldDir (cmdWord op a ad d) = d := by
  apply BitVec.eq_of_getLsbD_eq
  intro i hi
  rw [fieldDir, BitVec.getLsbD_extractLsb', cmdWord_bit, if_neg (by omega), if_pos (by omega),
    show 8 + i - 8 = i by omega]
  simp [hi]

theorem fieldZ_cmdWord (op a : Byte) (ad : Addr) (d : BitVec 1) : fieldZ (cmdWord op a ad d) = 0 := by
  apply BitVec.eq_of_getLsbD_eq
  intro i hi
  rw [fieldZ, BitVec.getLsbD_extractLsb', cmdWord_bit, if_pos (by omega)]
  simp

/-- Field `B` is `addr` above `dir`. -/
theorem fieldB_eq (w : Word) : fieldB w = fieldAddr w ++ fieldDir w := by
  apply BitVec.eq_of_getLsbD_eq
  intro i hi
  rw [show (fieldAddr w ++ fieldDir w).getLsbD i =
      if i < 1 then (fieldDir w).getLsbD i else (fieldAddr w).getLsbD (i - 1) from BitVec.getLsbD_append]
  simp only [fieldB, fieldAddr, fieldDir, BitVec.getLsbD_extractLsb']
  split
  · simp [*]
  · simp [hi, show i - 1 < 7 by omega, show 9 + (i - 1) = 8 + i by omega]

/-- A word is made up of its fields iff its reserved field is zero. -/
theorem cmdWord_fields (w : Word) :
    cmdWord (fieldOp w) (fieldA w) (fieldAddr w) (fieldDir w) = w ↔ fieldZ w = 0 := by
  constructor
  · intro h
    rw [← h]
    exact fieldZ_cmdWord _ _ _ _
  · intro h
    apply BitVec.eq_of_getLsbD_eq
    intro i hi
    rw [cmdWord_bit]
    split
    · rename_i hz
      have hb : (fieldZ w).getLsbD i = false := by rw [h]; simp
      rw [fieldZ, BitVec.getLsbD_extractLsb'] at hb
      simp [hz] at hb
      exact hb.symm
    · split
      · rw [fieldDir, BitVec.getLsbD_extractLsb', show 8 + (i - 8) = i by omega]
        simp [show i - 8 < 1 by omega]
      · split
        · rw [fieldAddr, BitVec.getLsbD_extractLsb', show 9 + (i - 9) = i by omega]
          simp [show i - 9 < 7 by omega]
        · split
          · rw [fieldA, BitVec.getLsbD_extractLsb', show 16 + (i - 16) = i by omega]
            simp [show i - 16 < 8 by omega]
          · rw [fieldOp, BitVec.getLsbD_extractLsb', show 24 + (i - 24) = i by omega]
            simp [show i - 24 < 8 by omega]

theorem headerAddr_headerByte (a : Addr) (d : BitVec 1) : headerAddr (headerByte a d) = a := by
  revert a d; decide

theorem headerDir_headerByte (a : Addr) (d : BitVec 1) : headerDir (headerByte a d) = d := by
  revert a d; decide

/-- A header is made up of its address and its direction. -/
theorem headerByte_fields (b : Byte) : headerByte (headerAddr b) (headerDir b) = b := by
  revert b; decide

end Sys2Proof
end

