-- ==== Sys2Proof/Laws/State.lean ====
section
/-! SUPPORT. One lemma per field for each named update of the state: the value the update gives the field, or that it leaves
the field alone. -/

namespace Sys2Proof.Machine

variable (s : State)

/-! ### driveLow -/

@[simp] theorem driveLow_cfg : (driveLow s).cfg = s.cfg := rfl
@[simp] theorem driveLow_initialized : (driveLow s).initialized = s.initialized := rfl
@[simp] theorem driveLow_busy : (driveLow s).busy = s.busy := rfl
@[simp] theorem driveLow_writeEnabled : (driveLow s).writeEnabled = s.writeEnabled := rfl
@[simp] theorem driveLow_preambleSent : (driveLow s).preambleSent = s.preambleSent := rfl
@[simp] theorem driveLow_out : (driveLow s).out = .driveLow := rfl
@[simp] theorem driveLow_phase : (driveLow s).phase = s.phase := rfl
@[simp] theorem driveLow_fb : (driveLow s).fb = s.fb := rfl
@[simp] theorem driveLow_cmd : (driveLow s).cmd = s.cmd := rfl
@[simp] theorem driveLow_txbuf : (driveLow s).txbuf = s.txbuf := rfl
@[simp] theorem driveLow_status : (driveLow s).status = s.status := rfl
@[simp] theorem driveLow_rxbuf : (driveLow s).rxbuf = s.rxbuf := rfl
@[simp] theorem driveLow_now : (driveLow s).now = s.now := rfl
@[simp] theorem driveLow_setupOk : (driveLow s).setupOk = s.setupOk := rfl
@[simp] theorem driveLow_peersLow : (driveLow s).peersLow = s.peersLow := rfl
@[simp] theorem driveLow_envLow : (driveLow s).envLow = s.envLow := rfl
@[simp] theorem driveLow_envHigh : (driveLow s).envHigh = s.envHigh := rfl
@[simp] theorem driveLow_inputs : (driveLow s).inputs = s.inputs := rfl
@[simp] theorem driveLow_resets : (driveLow s).resets = s.resets := rfl
@[simp] theorem driveLow_endTick : (driveLow s).endTick = s.endTick := rfl
@[simp] theorem driveLow_lows : (driveLow s).lows = s.lows := rfl
@[simp] theorem driveLow_discards : (driveLow s).discards = s.discards := rfl
@[simp] theorem driveLow_draws : (driveLow s).draws = s.draws := rfl

/-! ### releaseHigh -/

@[simp] theorem releaseHigh_cfg : (releaseHigh s).cfg = s.cfg := rfl
@[simp] theorem releaseHigh_initialized : (releaseHigh s).initialized = s.initialized := rfl
@[simp] theorem releaseHigh_busy : (releaseHigh s).busy = s.busy := rfl
@[simp] theorem releaseHigh_writeEnabled : (releaseHigh s).writeEnabled = s.writeEnabled := rfl
@[simp] theorem releaseHigh_preambleSent : (releaseHigh s).preambleSent = s.preambleSent := rfl
@[simp] theorem releaseHigh_out : (releaseHigh s).out = .released := rfl
@[simp] theorem releaseHigh_phase : (releaseHigh s).phase = s.phase := rfl
@[simp] theorem releaseHigh_fb : (releaseHigh s).fb = s.fb := rfl
@[simp] theorem releaseHigh_cmd : (releaseHigh s).cmd = s.cmd := rfl
@[simp] theorem releaseHigh_txbuf : (releaseHigh s).txbuf = s.txbuf := rfl
@[simp] theorem releaseHigh_status : (releaseHigh s).status = s.status := rfl
@[simp] theorem releaseHigh_rxbuf : (releaseHigh s).rxbuf = s.rxbuf := rfl
@[simp] theorem releaseHigh_now : (releaseHigh s).now = s.now := rfl
@[simp] theorem releaseHigh_setupOk : (releaseHigh s).setupOk = s.setupOk := rfl
@[simp] theorem releaseHigh_peersLow : (releaseHigh s).peersLow = s.peersLow := rfl
@[simp] theorem releaseHigh_envLow : (releaseHigh s).envLow = s.envLow := rfl
@[simp] theorem releaseHigh_envHigh : (releaseHigh s).envHigh = s.envHigh := rfl
@[simp] theorem releaseHigh_inputs : (releaseHigh s).inputs = s.inputs := rfl
@[simp] theorem releaseHigh_resets : (releaseHigh s).resets = s.resets := rfl
@[simp] theorem releaseHigh_endTick : (releaseHigh s).endTick = s.endTick := rfl
@[simp] theorem releaseHigh_lows : (releaseHigh s).lows = s.lows := rfl
@[simp] theorem releaseHigh_discards : (releaseHigh s).discards = s.discards := rfl
@[simp] theorem releaseHigh_draws : (releaseHigh s).draws = s.draws := rfl

/-! ### hold -/

@[simp] theorem hold_cfg (n : Nat) : (hold n s).cfg = s.cfg := rfl
@[simp] theorem hold_initialized (n : Nat) : (hold n s).initialized = s.initialized := rfl
@[simp] theorem hold_busy (n : Nat) : (hold n s).busy = s.busy := rfl
@[simp] theorem hold_writeEnabled (n : Nat) : (hold n s).writeEnabled = s.writeEnabled := rfl
@[simp] theorem hold_preambleSent (n : Nat) : (hold n s).preambleSent = s.preambleSent := rfl
@[simp] theorem hold_out (n : Nat) : (hold n s).out = s.out := rfl
@[simp] theorem hold_phase (n : Nat) : (hold n s).phase = s.phase := rfl
@[simp] theorem hold_fb (n : Nat) : (hold n s).fb = s.fb := rfl
@[simp] theorem hold_cmd (n : Nat) : (hold n s).cmd = s.cmd := rfl
@[simp] theorem hold_txbuf (n : Nat) : (hold n s).txbuf = s.txbuf := rfl
@[simp] theorem hold_status (n : Nat) : (hold n s).status = s.status := rfl
@[simp] theorem hold_rxbuf (n : Nat) : (hold n s).rxbuf = s.rxbuf := rfl
@[simp] theorem hold_now (n : Nat) : (hold n s).now = s.now + n := rfl
@[simp] theorem hold_setupOk (n : Nat) : (hold n s).setupOk = s.setupOk := rfl
@[simp] theorem hold_peersLow (n : Nat) : (hold n s).peersLow = s.peersLow := rfl
@[simp] theorem hold_envLow (n : Nat) : (hold n s).envLow = s.envLow := rfl
@[simp] theorem hold_envHigh (n : Nat) : (hold n s).envHigh = s.envHigh := rfl
@[simp] theorem hold_inputs (n : Nat) : (hold n s).inputs = s.inputs := rfl
@[simp] theorem hold_resets (n : Nat) : (hold n s).resets = s.resets := rfl
@[simp] theorem hold_endTick (n : Nat) : (hold n s).endTick = s.endTick := rfl
@[simp] theorem hold_lows (n : Nat) : (hold n s).lows = lowsAfterHold s n := rfl
@[simp] theorem hold_discards (n : Nat) : (hold n s).discards = s.discards := rfl
@[simp] theorem hold_draws (n : Nat) : (hold n s).draws = s.draws := rfl

/-! ### advanceTo -/

@[simp] theorem advanceTo_cfg (t : Nat) : (advanceTo t s).cfg = s.cfg := rfl
@[simp] theorem advanceTo_initialized (t : Nat) : (advanceTo t s).initialized = s.initialized := rfl
@[simp] theorem advanceTo_busy (t : Nat) : (advanceTo t s).busy = s.busy := rfl
@[simp] theorem advanceTo_writeEnabled (t : Nat) : (advanceTo t s).writeEnabled = s.writeEnabled := rfl
@[simp] theorem advanceTo_preambleSent (t : Nat) : (advanceTo t s).preambleSent = s.preambleSent := rfl
@[simp] theorem advanceTo_out (t : Nat) : (advanceTo t s).out = s.out := rfl
@[simp] theorem advanceTo_phase (t : Nat) : (advanceTo t s).phase = s.phase := rfl
@[simp] theorem advanceTo_fb (t : Nat) : (advanceTo t s).fb = s.fb := rfl
@[simp] theorem advanceTo_cmd (t : Nat) : (advanceTo t s).cmd = s.cmd := rfl
@[simp] theorem advanceTo_txbuf (t : Nat) : (advanceTo t s).txbuf = s.txbuf := rfl
@[simp] theorem advanceTo_status (t : Nat) : (advanceTo t s).status = s.status := rfl
@[simp] theorem advanceTo_rxbuf (t : Nat) : (advanceTo t s).rxbuf = s.rxbuf := rfl
@[simp] theorem advanceTo_now (t : Nat) : (advanceTo t s).now = t := rfl
@[simp] theorem advanceTo_setupOk (t : Nat) : (advanceTo t s).setupOk = s.setupOk := rfl
@[simp] theorem advanceTo_peersLow (t : Nat) : (advanceTo t s).peersLow = s.peersLow := rfl
@[simp] theorem advanceTo_envLow (t : Nat) : (advanceTo t s).envLow = s.envLow := rfl
@[simp] theorem advanceTo_envHigh (t : Nat) : (advanceTo t s).envHigh = s.envHigh := rfl
@[simp] theorem advanceTo_inputs (t : Nat) : (advanceTo t s).inputs = s.inputs := rfl
@[simp] theorem advanceTo_resets (t : Nat) : (advanceTo t s).resets = s.resets := rfl
@[simp] theorem advanceTo_endTick (t : Nat) : (advanceTo t s).endTick = s.endTick := rfl
@[simp] theorem advanceTo_lows (t : Nat) : (advanceTo t s).lows = s.lows := rfl
@[simp] theorem advanceTo_discards (t : Nat) : (advanceTo t s).discards = s.discards := rfl
@[simp] theorem advanceTo_draws (t : Nat) : (advanceTo t s).draws = s.draws := rfl

/-! ### endCommand -/

@[simp] theorem endCommand_cfg (c : StatusCode) (n : Nat) : (endCommand c n s).cfg = s.cfg := rfl
@[simp] theorem endCommand_initialized (c : StatusCode) (n : Nat) : (endCommand c n s).initialized = s.initialized := rfl
@[simp] theorem endCommand_busy (c : StatusCode) (n : Nat) : (endCommand c n s).busy = s.busy := rfl
@[simp] theorem endCommand_writeEnabled (c : StatusCode) (n : Nat) : (endCommand c n s).writeEnabled = s.writeEnabled := rfl
@[simp] theorem endCommand_preambleSent (c : StatusCode) (n : Nat) : (endCommand c n s).preambleSent = s.preambleSent := rfl
@[simp] theorem endCommand_out (c : StatusCode) (n : Nat) : (endCommand c n s).out = s.out := rfl
@[simp] theorem endCommand_phase (c : StatusCode) (n : Nat) : (endCommand c n s).phase = .ready := rfl
@[simp] theorem endCommand_fb (c : StatusCode) (n : Nat) : (endCommand c n s).fb = [] := rfl
@[simp] theorem endCommand_cmd (c : StatusCode) (n : Nat) : (endCommand c n s).cmd = s.cmd := rfl
@[simp] theorem endCommand_txbuf (c : StatusCode) (n : Nat) : (endCommand c n s).txbuf = s.txbuf := rfl
@[simp] theorem endCommand_status (c : StatusCode) (n : Nat) : (endCommand c n s).status = statusWord c n := rfl
@[simp] theorem endCommand_rxbuf (c : StatusCode) (n : Nat) : (endCommand c n s).rxbuf = s.rxbuf := rfl
@[simp] theorem endCommand_now (c : StatusCode) (n : Nat) : (endCommand c n s).now = s.now := rfl
@[simp] theorem endCommand_setupOk (c : StatusCode) (n : Nat) : (endCommand c n s).setupOk = s.setupOk := rfl
@[simp] theorem endCommand_peersLow (c : StatusCode) (n : Nat) : (endCommand c n s).peersLow = s.peersLow := rfl
@[simp] theorem endCommand_envLow (c : StatusCode) (n : Nat) : (endCommand c n s).envLow = s.envLow := rfl
@[simp] theorem endCommand_envHigh (c : StatusCode) (n : Nat) : (endCommand c n s).envHigh = s.envHigh := rfl
@[simp] theorem endCommand_inputs (c : StatusCode) (n : Nat) : (endCommand c n s).inputs = s.inputs := rfl
@[simp] theorem endCommand_resets (c : StatusCode) (n : Nat) : (endCommand c n s).resets = s.resets := rfl
@[simp] theorem endCommand_endTick (c : StatusCode) (n : Nat) : (endCommand c n s).endTick = some s.now := rfl
@[simp] theorem endCommand_lows (c : StatusCode) (n : Nat) : (endCommand c n s).lows = s.lows := rfl
@[simp] theorem endCommand_discards (c : StatusCode) (n : Nat) : (endCommand c n s).discards = s.discards := rfl
@[simp] theorem endCommand_draws (c : StatusCode) (n : Nat) : (endCommand c n s).draws = s.draws := rfl

/-! ### returnOk -/

@[simp] theorem returnOk_cfg (n : Nat) : (returnOk n s).cfg = s.cfg := rfl
@[simp] theorem returnOk_initialized (n : Nat) : (returnOk n s).initialized = s.initialized := rfl
@[simp] theorem returnOk_busy (n : Nat) : (returnOk n s).busy = s.busy := rfl
@[simp] theorem returnOk_writeEnabled (n : Nat) : (returnOk n s).writeEnabled = s.writeEnabled := rfl
@[simp] theorem returnOk_preambleSent (n : Nat) : (returnOk n s).preambleSent = s.preambleSent := rfl
@[simp] theorem returnOk_out (n : Nat) : (returnOk n s).out = s.out := rfl
@[simp] theorem returnOk_phase (n : Nat) : (returnOk n s).phase = .ready := rfl
@[simp] theorem returnOk_fb (n : Nat) : (returnOk n s).fb = [] := rfl
@[simp] theorem returnOk_cmd (n : Nat) : (returnOk n s).cmd = s.cmd := rfl
@[simp] theorem returnOk_txbuf (n : Nat) : (returnOk n s).txbuf = s.txbuf := rfl
@[simp] theorem returnOk_status (n : Nat) : (returnOk n s).status = statusWord .ok n := rfl
@[simp] theorem returnOk_rxbuf (n : Nat) : (returnOk n s).rxbuf = s.rxbuf := rfl
@[simp] theorem returnOk_now (n : Nat) : (returnOk n s).now = s.now := rfl
@[simp] theorem returnOk_setupOk (n : Nat) : (returnOk n s).setupOk = s.setupOk := rfl
@[simp] theorem returnOk_peersLow (n : Nat) : (returnOk n s).peersLow = s.peersLow := rfl
@[simp] theorem returnOk_envLow (n : Nat) : (returnOk n s).envLow = s.envLow := rfl
@[simp] theorem returnOk_envHigh (n : Nat) : (returnOk n s).envHigh = s.envHigh := rfl
@[simp] theorem returnOk_inputs (n : Nat) : (returnOk n s).inputs = s.inputs := rfl
@[simp] theorem returnOk_resets (n : Nat) : (returnOk n s).resets = s.resets := rfl
@[simp] theorem returnOk_endTick (n : Nat) : (returnOk n s).endTick = some s.now := rfl
@[simp] theorem returnOk_lows (n : Nat) : (returnOk n s).lows = s.lows := rfl
@[simp] theorem returnOk_discards (n : Nat) : (returnOk n s).discards = s.discards := rfl
@[simp] theorem returnOk_draws (n : Nat) : (returnOk n s).draws = s.draws := rfl

/-! ### raiseStatus -/

@[simp] theorem raiseStatus_cfg (e : StatusCode) : (raiseStatus e s).cfg = s.cfg := rfl
@[simp] theorem raiseStatus_initialized (e : StatusCode) : (raiseStatus e s).initialized = s.initialized := rfl
@[simp] theorem raiseStatus_busy (e : StatusCode) : (raiseStatus e s).busy = s.busy := rfl
@[simp] theorem raiseStatus_writeEnabled (e : StatusCode) : (raiseStatus e s).writeEnabled = s.writeEnabled := rfl
@[simp] theorem raiseStatus_preambleSent (e : StatusCode) : (raiseStatus e s).preambleSent = s.preambleSent := rfl
@[simp] theorem raiseStatus_out (e : StatusCode) : (raiseStatus e s).out = s.out := rfl
@[simp] theorem raiseStatus_phase (e : StatusCode) : (raiseStatus e s).phase = .ready := rfl
@[simp] theorem raiseStatus_fb (e : StatusCode) : (raiseStatus e s).fb = [] := rfl
@[simp] theorem raiseStatus_cmd (e : StatusCode) : (raiseStatus e s).cmd = s.cmd := rfl
@[simp] theorem raiseStatus_txbuf (e : StatusCode) : (raiseStatus e s).txbuf = s.txbuf := rfl
@[simp] theorem raiseStatus_status (e : StatusCode) : (raiseStatus e s).status = statusWord e 0 := rfl
@[simp] theorem raiseStatus_rxbuf (e : StatusCode) : (raiseStatus e s).rxbuf = s.rxbuf := rfl
@[simp] theorem raiseStatus_now (e : StatusCode) : (raiseStatus e s).now = s.now := rfl
@[simp] theorem raiseStatus_setupOk (e : StatusCode) : (raiseStatus e s).setupOk = s.setupOk := rfl
@[simp] theorem raiseStatus_peersLow (e : StatusCode) : (raiseStatus e s).peersLow = s.peersLow := rfl
@[simp] theorem raiseStatus_envLow (e : StatusCode) : (raiseStatus e s).envLow = s.envLow := rfl
@[simp] theorem raiseStatus_envHigh (e : StatusCode) : (raiseStatus e s).envHigh = s.envHigh := rfl
@[simp] theorem raiseStatus_inputs (e : StatusCode) : (raiseStatus e s).inputs = s.inputs := rfl
@[simp] theorem raiseStatus_resets (e : StatusCode) : (raiseStatus e s).resets = s.resets := rfl
@[simp] theorem raiseStatus_endTick (e : StatusCode) : (raiseStatus e s).endTick = some s.now := rfl
@[simp] theorem raiseStatus_lows (e : StatusCode) : (raiseStatus e s).lows = s.lows := rfl
@[simp] theorem raiseStatus_discards (e : StatusCode) : (raiseStatus e s).discards = s.discards := rfl
@[simp] theorem raiseStatus_draws (e : StatusCode) : (raiseStatus e s).draws = s.draws := rfl

/-! ### discardFrame -/

@[simp] theorem discardFrame_cfg (r : Discard) : (discardFrame r s).cfg = s.cfg := rfl
@[simp] theorem discardFrame_initialized (r : Discard) : (discardFrame r s).initialized = s.initialized := rfl
@[simp] theorem discardFrame_busy (r : Discard) : (discardFrame r s).busy = s.busy := rfl
@[simp] theorem discardFrame_writeEnabled (r : Discard) : (discardFrame r s).writeEnabled = s.writeEnabled := rfl
@[simp] theorem discardFrame_preambleSent (r : Discard) : (discardFrame r s).preambleSent = s.preambleSent := rfl
@[simp] theorem discardFrame_out (r : Discard) : (discardFrame r s).out = s.out := rfl
@[simp] theorem discardFrame_phase (r : Discard) : (discardFrame r s).phase = searchPhase s.phase := rfl
@[simp] theorem discardFrame_fb (r : Discard) : (discardFrame r s).fb = [] := rfl
@[simp] theorem discardFrame_cmd (r : Discard) : (discardFrame r s).cmd = s.cmd := rfl
@[simp] theorem discardFrame_txbuf (r : Discard) : (discardFrame r s).txbuf = s.txbuf := rfl
@[simp] theorem discardFrame_status (r : Discard) : (discardFrame r s).status = s.status := rfl
@[simp] theorem discardFrame_rxbuf (r : Discard) : (discardFrame r s).rxbuf = s.rxbuf := rfl
@[simp] theorem discardFrame_now (r : Discard) : (discardFrame r s).now = s.now := rfl
@[simp] theorem discardFrame_setupOk (r : Discard) : (discardFrame r s).setupOk = s.setupOk := rfl
@[simp] theorem discardFrame_peersLow (r : Discard) : (discardFrame r s).peersLow = s.peersLow := rfl
@[simp] theorem discardFrame_envLow (r : Discard) : (discardFrame r s).envLow = s.envLow := rfl
@[simp] theorem discardFrame_envHigh (r : Discard) : (discardFrame r s).envHigh = s.envHigh := rfl
@[simp] theorem discardFrame_inputs (r : Discard) : (discardFrame r s).inputs = s.inputs := rfl
@[simp] theorem discardFrame_resets (r : Discard) : (discardFrame r s).resets = s.resets := rfl
@[simp] theorem discardFrame_endTick (r : Discard) : (discardFrame r s).endTick = s.endTick := rfl
@[simp] theorem discardFrame_lows (r : Discard) : (discardFrame r s).lows = s.lows := rfl
@[simp] theorem discardFrame_discards (r : Discard) : (discardFrame r s).discards = s.discards ++ [(r, s.now)] := rfl
@[simp] theorem discardFrame_draws (r : Discard) : (discardFrame r s).draws = s.draws := rfl

/-! ### rxAt -/

@[simp] theorem rxAt_cfg (p : RxPos) (m : Nat) : (rxAt p m s).cfg = s.cfg := rfl
@[simp] theorem rxAt_initialized (p : RxPos) (m : Nat) : (rxAt p m s).initialized = s.initialized := rfl
@[simp] theorem rxAt_busy (p : RxPos) (m : Nat) : (rxAt p m s).busy = s.busy := rfl
@[simp] theorem rxAt_writeEnabled (p : RxPos) (m : Nat) : (rxAt p m s).writeEnabled = s.writeEnabled := rfl
@[simp] theorem rxAt_preambleSent (p : RxPos) (m : Nat) : (rxAt p m s).preambleSent = s.preambleSent := rfl
@[simp] theorem rxAt_out (p : RxPos) (m : Nat) : (rxAt p m s).out = s.out := rfl
@[simp] theorem rxAt_phase (p : RxPos) (m : Nat) : (rxAt p m s).phase = .receiving p m := rfl
@[simp] theorem rxAt_fb (p : RxPos) (m : Nat) : (rxAt p m s).fb = s.fb := rfl
@[simp] theorem rxAt_cmd (p : RxPos) (m : Nat) : (rxAt p m s).cmd = s.cmd := rfl
@[simp] theorem rxAt_txbuf (p : RxPos) (m : Nat) : (rxAt p m s).txbuf = s.txbuf := rfl
@[simp] theorem rxAt_status (p : RxPos) (m : Nat) : (rxAt p m s).status = s.status := rfl
@[simp] theorem rxAt_rxbuf (p : RxPos) (m : Nat) : (rxAt p m s).rxbuf = s.rxbuf := rfl
@[simp] theorem rxAt_now (p : RxPos) (m : Nat) : (rxAt p m s).now = s.now := rfl
@[simp] theorem rxAt_setupOk (p : RxPos) (m : Nat) : (rxAt p m s).setupOk = s.setupOk := rfl
@[simp] theorem rxAt_peersLow (p : RxPos) (m : Nat) : (rxAt p m s).peersLow = s.peersLow := rfl
@[simp] theorem rxAt_envLow (p : RxPos) (m : Nat) : (rxAt p m s).envLow = s.envLow := rfl
@[simp] theorem rxAt_envHigh (p : RxPos) (m : Nat) : (rxAt p m s).envHigh = s.envHigh := rfl
@[simp] theorem rxAt_inputs (p : RxPos) (m : Nat) : (rxAt p m s).inputs = s.inputs := rfl
@[simp] theorem rxAt_resets (p : RxPos) (m : Nat) : (rxAt p m s).resets = s.resets := rfl
@[simp] theorem rxAt_endTick (p : RxPos) (m : Nat) : (rxAt p m s).endTick = s.endTick := rfl
@[simp] theorem rxAt_lows (p : RxPos) (m : Nat) : (rxAt p m s).lows = s.lows := rfl
@[simp] theorem rxAt_discards (p : RxPos) (m : Nat) : (rxAt p m s).discards = s.discards := rfl
@[simp] theorem rxAt_draws (p : RxPos) (m : Nat) : (rxAt p m s).draws = s.draws := rfl

/-! ### deliver -/

@[simp] theorem deliver_cfg : (deliver s).cfg = s.cfg := rfl
@[simp] theorem deliver_initialized : (deliver s).initialized = s.initialized := rfl
@[simp] theorem deliver_busy : (deliver s).busy = s.busy := rfl
@[simp] theorem deliver_writeEnabled : (deliver s).writeEnabled = s.writeEnabled := rfl
@[simp] theorem deliver_preambleSent : (deliver s).preambleSent = s.preambleSent := rfl
@[simp] theorem deliver_out : (deliver s).out = s.out := rfl
@[simp] theorem deliver_phase : (deliver s).phase = .ready := rfl
@[simp] theorem deliver_fb : (deliver s).fb = [] := rfl
@[simp] theorem deliver_cmd : (deliver s).cmd = s.cmd := rfl
@[simp] theorem deliver_txbuf : (deliver s).txbuf = s.txbuf := rfl
@[simp] theorem deliver_status : (deliver s).status = statusWord .ok (rxPayload s.fb).length := rfl
@[simp] theorem deliver_rxbuf : (deliver s).rxbuf = rxContents s.draws (rxPayload s.fb) := rfl
@[simp] theorem deliver_now : (deliver s).now = s.now := rfl
@[simp] theorem deliver_setupOk : (deliver s).setupOk = s.setupOk := rfl
@[simp] theorem deliver_peersLow : (deliver s).peersLow = s.peersLow := rfl
@[simp] theorem deliver_envLow : (deliver s).envLow = s.envLow := rfl
@[simp] theorem deliver_envHigh : (deliver s).envHigh = s.envHigh := rfl
@[simp] theorem deliver_inputs : (deliver s).inputs = s.inputs := rfl
@[simp] theorem deliver_resets : (deliver s).resets = s.resets := rfl
@[simp] theorem deliver_endTick : (deliver s).endTick = some s.now := rfl
@[simp] theorem deliver_lows : (deliver s).lows = s.lows := rfl
@[simp] theorem deliver_discards : (deliver s).discards = s.discards := rfl
@[simp] theorem deliver_draws : (deliver s).draws = s.draws + 1 := rfl

/-! ### setBusy -/

@[simp] theorem setBusy_cfg : (setBusy s).cfg = s.cfg := rfl
@[simp] theorem setBusy_initialized : (setBusy s).initialized = s.initialized := rfl
@[simp] theorem setBusy_busy : (setBusy s).busy = true := rfl
@[simp] theorem setBusy_writeEnabled : (setBusy s).writeEnabled = s.writeEnabled := rfl
@[simp] theorem setBusy_preambleSent : (setBusy s).preambleSent = s.preambleSent := rfl
@[simp] theorem setBusy_out : (setBusy s).out = s.out := rfl
@[simp] theorem setBusy_phase : (setBusy s).phase = s.phase := rfl
@[simp] theorem setBusy_fb : (setBusy s).fb = s.fb := rfl
@[simp] theorem setBusy_cmd : (setBusy s).cmd = s.cmd := rfl
@[simp] theorem setBusy_txbuf : (setBusy s).txbuf = s.txbuf := rfl
@[simp] theorem setBusy_status : (setBusy s).status = s.status := rfl
@[simp] theorem setBusy_rxbuf : (setBusy s).rxbuf = s.rxbuf := rfl
@[simp] theorem setBusy_now : (setBusy s).now = s.now := rfl
@[simp] theorem setBusy_setupOk : (setBusy s).setupOk = s.setupOk := rfl
@[simp] theorem setBusy_peersLow : (setBusy s).peersLow = s.peersLow := rfl
@[simp] theorem setBusy_envLow : (setBusy s).envLow = s.envLow := rfl
@[simp] theorem setBusy_envHigh : (setBusy s).envHigh = s.envHigh := rfl
@[simp] theorem setBusy_inputs : (setBusy s).inputs = s.inputs := rfl
@[simp] theorem setBusy_resets : (setBusy s).resets = s.resets := rfl
@[simp] theorem setBusy_endTick : (setBusy s).endTick = s.endTick := rfl
@[simp] theorem setBusy_lows : (setBusy s).lows = s.lows := rfl
@[simp] theorem setBusy_discards : (setBusy s).discards = s.discards := rfl
@[simp] theorem setBusy_draws : (setBusy s).draws = s.draws := rfl

/-! ### clearBusy -/

@[simp] theorem clearBusy_cfg : (clearBusy s).cfg = s.cfg := rfl
@[simp] theorem clearBusy_initialized : (clearBusy s).initialized = s.initialized := rfl
@[simp] theorem clearBusy_busy : (clearBusy s).busy = false := rfl
@[simp] theorem clearBusy_writeEnabled : (clearBusy s).writeEnabled = s.writeEnabled := rfl
@[simp] theorem clearBusy_preambleSent : (clearBusy s).preambleSent = s.preambleSent := rfl
@[simp] theorem clearBusy_out : (clearBusy s).out = s.out := rfl
@[simp] theorem clearBusy_phase : (clearBusy s).phase = s.phase := rfl
@[simp] theorem clearBusy_fb : (clearBusy s).fb = s.fb := rfl
@[simp] theorem clearBusy_cmd : (clearBusy s).cmd = s.cmd := rfl
@[simp] theorem clearBusy_txbuf : (clearBusy s).txbuf = s.txbuf := rfl
@[simp] theorem clearBusy_status : (clearBusy s).status = s.status := rfl
@[simp] theorem clearBusy_rxbuf : (clearBusy s).rxbuf = s.rxbuf := rfl
@[simp] theorem clearBusy_now : (clearBusy s).now = s.now := rfl
@[simp] theorem clearBusy_setupOk : (clearBusy s).setupOk = s.setupOk := rfl
@[simp] theorem clearBusy_peersLow : (clearBusy s).peersLow = s.peersLow := rfl
@[simp] theorem clearBusy_envLow : (clearBusy s).envLow = s.envLow := rfl
@[simp] theorem clearBusy_envHigh : (clearBusy s).envHigh = s.envHigh := rfl
@[simp] theorem clearBusy_inputs : (clearBusy s).inputs = s.inputs := rfl
@[simp] theorem clearBusy_resets : (clearBusy s).resets = s.resets := rfl
@[simp] theorem clearBusy_endTick : (clearBusy s).endTick = s.endTick := rfl
@[simp] theorem clearBusy_lows : (clearBusy s).lows = s.lows := rfl
@[simp] theorem clearBusy_discards : (clearBusy s).discards = s.discards := rfl
@[simp] theorem clearBusy_draws : (clearBusy s).draws = s.draws := rfl

/-! ### takeTurn -/

@[simp] theorem takeTurn_cfg : (takeTurn s).cfg = s.cfg := rfl
@[simp] theorem takeTurn_initialized : (takeTurn s).initialized = s.initialized := rfl
@[simp] theorem takeTurn_busy : (takeTurn s).busy = s.busy := rfl
@[simp] theorem takeTurn_writeEnabled : (takeTurn s).writeEnabled = false := rfl
@[simp] theorem takeTurn_preambleSent : (takeTurn s).preambleSent = s.preambleSent := rfl
@[simp] theorem takeTurn_out : (takeTurn s).out = s.out := rfl
@[simp] theorem takeTurn_phase : (takeTurn s).phase = s.phase := rfl
@[simp] theorem takeTurn_fb : (takeTurn s).fb = s.fb := rfl
@[simp] theorem takeTurn_cmd : (takeTurn s).cmd = s.cmd := rfl
@[simp] theorem takeTurn_txbuf : (takeTurn s).txbuf = s.txbuf := rfl
@[simp] theorem takeTurn_status : (takeTurn s).status = s.status := rfl
@[simp] theorem takeTurn_rxbuf : (takeTurn s).rxbuf = s.rxbuf := rfl
@[simp] theorem takeTurn_now : (takeTurn s).now = s.now := rfl
@[simp] theorem takeTurn_setupOk : (takeTurn s).setupOk = s.setupOk := rfl
@[simp] theorem takeTurn_peersLow : (takeTurn s).peersLow = s.peersLow := rfl
@[simp] theorem takeTurn_envLow : (takeTurn s).envLow = s.envLow := rfl
@[simp] theorem takeTurn_envHigh : (takeTurn s).envHigh = s.envHigh := rfl
@[simp] theorem takeTurn_inputs : (takeTurn s).inputs = s.inputs := rfl
@[simp] theorem takeTurn_resets : (takeTurn s).resets = s.resets := rfl
@[simp] theorem takeTurn_endTick : (takeTurn s).endTick = s.endTick := rfl
@[simp] theorem takeTurn_lows : (takeTurn s).lows = s.lows := rfl
@[simp] theorem takeTurn_discards : (takeTurn s).discards = s.discards := rfl
@[simp] theorem takeTurn_draws : (takeTurn s).draws = s.draws := rfl

/-! ### grantTurn -/

@[simp] theorem grantTurn_cfg : (grantTurn s).cfg = s.cfg := rfl
@[simp] theorem grantTurn_initialized : (grantTurn s).initialized = s.initialized := rfl
@[simp] theorem grantTurn_busy : (grantTurn s).busy = s.busy := rfl
@[simp] theorem grantTurn_writeEnabled : (grantTurn s).writeEnabled = true := rfl
@[simp] theorem grantTurn_preambleSent : (grantTurn s).preambleSent = s.preambleSent := rfl
@[simp] theorem grantTurn_out : (grantTurn s).out = s.out := rfl
@[simp] theorem grantTurn_phase : (grantTurn s).phase = s.phase := rfl
@[simp] theorem grantTurn_fb : (grantTurn s).fb = s.fb := rfl
@[simp] theorem grantTurn_cmd : (grantTurn s).cmd = s.cmd := rfl
@[simp] theorem grantTurn_txbuf : (grantTurn s).txbuf = s.txbuf := rfl
@[simp] theorem grantTurn_status : (grantTurn s).status = s.status := rfl
@[simp] theorem grantTurn_rxbuf : (grantTurn s).rxbuf = s.rxbuf := rfl
@[simp] theorem grantTurn_now : (grantTurn s).now = s.now := rfl
@[simp] theorem grantTurn_setupOk : (grantTurn s).setupOk = s.setupOk := rfl
@[simp] theorem grantTurn_peersLow : (grantTurn s).peersLow = s.peersLow := rfl
@[simp] theorem grantTurn_envLow : (grantTurn s).envLow = s.envLow := rfl
@[simp] theorem grantTurn_envHigh : (grantTurn s).envHigh = s.envHigh := rfl
@[simp] theorem grantTurn_inputs : (grantTurn s).inputs = s.inputs := rfl
@[simp] theorem grantTurn_resets : (grantTurn s).resets = s.resets := rfl
@[simp] theorem grantTurn_endTick : (grantTurn s).endTick = s.endTick := rfl
@[simp] theorem grantTurn_lows : (grantTurn s).lows = s.lows := rfl
@[simp] theorem grantTurn_discards : (grantTurn s).discards = s.discards := rfl
@[simp] theorem grantTurn_draws : (grantTurn s).draws = s.draws := rfl

/-! ### setPreamble -/

@[simp] theorem setPreamble_cfg : (setPreamble s).cfg = s.cfg := rfl
@[simp] theorem setPreamble_initialized : (setPreamble s).initialized = s.initialized := rfl
@[simp] theorem setPreamble_busy : (setPreamble s).busy = s.busy := rfl
@[simp] theorem setPreamble_writeEnabled : (setPreamble s).writeEnabled = s.writeEnabled := rfl
@[simp] theorem setPreamble_preambleSent : (setPreamble s).preambleSent = true := rfl
@[simp] theorem setPreamble_out : (setPreamble s).out = s.out := rfl
@[simp] theorem setPreamble_phase : (setPreamble s).phase = s.phase := rfl
@[simp] theorem setPreamble_fb : (setPreamble s).fb = s.fb := rfl
@[simp] theorem setPreamble_cmd : (setPreamble s).cmd = s.cmd := rfl
@[simp] theorem setPreamble_txbuf : (setPreamble s).txbuf = s.txbuf := rfl
@[simp] theorem setPreamble_status : (setPreamble s).status = s.status := rfl
@[simp] theorem setPreamble_rxbuf : (setPreamble s).rxbuf = s.rxbuf := rfl
@[simp] theorem setPreamble_now : (setPreamble s).now = s.now := rfl
@[simp] theorem setPreamble_setupOk : (setPreamble s).setupOk = s.setupOk := rfl
@[simp] theorem setPreamble_peersLow : (setPreamble s).peersLow = s.peersLow := rfl
@[simp] theorem setPreamble_envLow : (setPreamble s).envLow = s.envLow := rfl
@[simp] theorem setPreamble_envHigh : (setPreamble s).envHigh = s.envHigh := rfl
@[simp] theorem setPreamble_inputs : (setPreamble s).inputs = s.inputs := rfl
@[simp] theorem setPreamble_resets : (setPreamble s).resets = s.resets := rfl
@[simp] theorem setPreamble_endTick : (setPreamble s).endTick = s.endTick := rfl
@[simp] theorem setPreamble_lows : (setPreamble s).lows = s.lows := rfl
@[simp] theorem setPreamble_discards : (setPreamble s).discards = s.discards := rfl
@[simp] theorem setPreamble_draws : (setPreamble s).draws = s.draws := rfl

/-! ### clearPreamble -/

@[simp] theorem clearPreamble_cfg : (clearPreamble s).cfg = s.cfg := rfl
@[simp] theorem clearPreamble_initialized : (clearPreamble s).initialized = s.initialized := rfl
@[simp] theorem clearPreamble_busy : (clearPreamble s).busy = s.busy := rfl
@[simp] theorem clearPreamble_writeEnabled : (clearPreamble s).writeEnabled = s.writeEnabled := rfl
@[simp] theorem clearPreamble_preambleSent : (clearPreamble s).preambleSent = false := rfl
@[simp] theorem clearPreamble_out : (clearPreamble s).out = s.out := rfl
@[simp] theorem clearPreamble_phase : (clearPreamble s).phase = s.phase := rfl
@[simp] theorem clearPreamble_fb : (clearPreamble s).fb = s.fb := rfl
@[simp] theorem clearPreamble_cmd : (clearPreamble s).cmd = s.cmd := rfl
@[simp] theorem clearPreamble_txbuf : (clearPreamble s).txbuf = s.txbuf := rfl
@[simp] theorem clearPreamble_status : (clearPreamble s).status = s.status := rfl
@[simp] theorem clearPreamble_rxbuf : (clearPreamble s).rxbuf = s.rxbuf := rfl
@[simp] theorem clearPreamble_now : (clearPreamble s).now = s.now := rfl
@[simp] theorem clearPreamble_setupOk : (clearPreamble s).setupOk = s.setupOk := rfl
@[simp] theorem clearPreamble_peersLow : (clearPreamble s).peersLow = s.peersLow := rfl
@[simp] theorem clearPreamble_envLow : (clearPreamble s).envLow = s.envLow := rfl
@[simp] theorem clearPreamble_envHigh : (clearPreamble s).envHigh = s.envHigh := rfl
@[simp] theorem clearPreamble_inputs : (clearPreamble s).inputs = s.inputs := rfl
@[simp] theorem clearPreamble_resets : (clearPreamble s).resets = s.resets := rfl
@[simp] theorem clearPreamble_endTick : (clearPreamble s).endTick = s.endTick := rfl
@[simp] theorem clearPreamble_lows : (clearPreamble s).lows = s.lows := rfl
@[simp] theorem clearPreamble_discards : (clearPreamble s).discards = s.discards := rfl
@[simp] theorem clearPreamble_draws : (clearPreamble s).draws = s.draws := rfl

/-! ### hardReset -/

@[simp] theorem hardReset_cfg : (hardReset s).cfg = s.cfg := rfl
@[simp] theorem hardReset_initialized : (hardReset s).initialized = false := rfl
@[simp] theorem hardReset_busy : (hardReset s).busy = false := rfl
@[simp] theorem hardReset_writeEnabled : (hardReset s).writeEnabled = false := rfl
@[simp] theorem hardReset_preambleSent : (hardReset s).preambleSent = false := rfl
@[simp] theorem hardReset_out : (hardReset s).out = .released := rfl
@[simp] theorem hardReset_phase : (hardReset s).phase = .ready := rfl
@[simp] theorem hardReset_fb : (hardReset s).fb = [] := rfl
@[simp] theorem hardReset_cmd : (hardReset s).cmd = Config.freeWord s.draws 0 := rfl
@[simp] theorem hardReset_txbuf : (hardReset s).txbuf = bufferOf fun i => Config.freeByte s.draws i := rfl
@[simp] theorem hardReset_status : (hardReset s).status = Config.freeWord s.draws 1 := rfl
@[simp] theorem hardReset_rxbuf : (hardReset s).rxbuf = bufferOf fun i => Config.freeByte s.draws (32 + i) := rfl
@[simp] theorem hardReset_now : (hardReset s).now = s.now := rfl
@[simp] theorem hardReset_setupOk : (hardReset s).setupOk = s.setupOk := rfl
@[simp] theorem hardReset_peersLow : (hardReset s).peersLow = s.peersLow := rfl
@[simp] theorem hardReset_envLow : (hardReset s).envLow = s.envLow := rfl
@[simp] theorem hardReset_envHigh : (hardReset s).envHigh = s.envHigh := rfl
@[simp] theorem hardReset_inputs : (hardReset s).inputs = s.inputs := rfl
@[simp] theorem hardReset_resets : (hardReset s).resets = s.resets.tail := rfl
@[simp] theorem hardReset_endTick : (hardReset s).endTick = none := rfl
@[simp] theorem hardReset_lows : (hardReset s).lows = s.lows := rfl
@[simp] theorem hardReset_discards : (hardReset s).discards = s.discards := rfl
@[simp] theorem hardReset_draws : (hardReset s).draws = s.draws + 1 := rfl

end Sys2Proof.Machine
end

