-- ==== Sys2Proof/Laws/Ops.lean ====
section
/-! SUPPORT. What the shared operations do, said once: buffers, frames and checksums, the symbols' two halves, outcomes. -/

namespace Sys2Proof.Machine

/-! ## Buffers -/

theorem bufferOf_get (f : Nat → Byte) (i : Nat) (h : i < 32) : (bufferOf f)[i] = f i := by
  simp [bufferOf]

theorem bufferOf_get? (f : Nat → Byte) (i : Nat) (h : i < 32) : (bufferOf f)[i]? = some (f i) := by
  rw [Vector.getElem?_eq_getElem h, bufferOf_get f i h]

/-- A delivery puts payload byte `i` into `RXBUF[i]`. -/
theorem rxContents_get? (d : Nat) (p : List Byte) (i : Nat) (h : i < 32) (hp : i < p.length) :
    (rxContents d p)[i]? = p[i]? := by
  rw [rxContents, bufferOf_get? _ i h]
  simp [List.getD, hp]

theorem txPayload_length (s : State) (len : Byte) (h : len.toNat ≤ 32) : (txPayload s len).length = len.toNat := by
  simp [txPayload, h]

/-! ## Frames -/

theorem checksum_append (l l' : List Byte) : checksum (l ++ l') = checksum l + checksum l' := by
  induction l with
  | nil => simp [checksum]
  | cons b l ih => simp [checksum, ih, BitVec.add_assoc]

theorem checksumHolds_iff (fb : List Byte) :
    checksumHolds fb = true ↔ fb.getLast? = some (checksum fb.dropLast) := by
  simp [checksumHolds]

theorem frameBytes_length (h : Byte) (p : List Byte) : (frameBytes h p).length = p.length + 2 := by
  simp [frameBytes]

theorem frameBytes_dropLast (h : Byte) (p : List Byte) : (frameBytes h p).dropLast = h :: p := by
  simp only [frameBytes, List.dropLast_concat]

theorem frameBytes_getLast? (h : Byte) (p : List Byte) :
    (frameBytes h p).getLast? = some (checksum (h :: p)) := by
  simp only [frameBytes, List.getLast?_concat]

/-- A transmitter's frame passes step 5. -/
theorem checksumHolds_frameBytes (h : Byte) (p : List Byte) : checksumHolds (frameBytes h p) = true := by
  rw [checksumHolds_iff, frameBytes_getLast?, frameBytes_dropLast]

/-- Header and checksum stripped, a frame is its payload. -/
theorem rxPayload_frameBytes (h : Byte) (p : List Byte) : rxPayload (frameBytes h p) = p := by
  simp [rxPayload, frameBytes]

theorem rxPayload_length (fb : List Byte) : (rxPayload fb).length = fb.length - 2 := by
  simp only [rxPayload, List.length_dropLast, List.length_drop]; omega

theorem rxPayload_get? (fb : List Byte) (i : Nat) (h : i < fb.length - 2) : (rxPayload fb)[i]? = fb[i + 1]? := by
  have h' : i < (fb.drop 1).dropLast.length := by
    simp only [List.length_dropLast, List.length_drop]; omega
  rw [rxPayload, List.getElem?_eq_getElem h', List.getElem_dropLast, List.getElem_drop,
    List.getElem?_eq_getElem (by omega)]
  congr 1; simp [Nat.add_comm]

/-! ## The two halves of a symbol -/

theorem emitLow_eq (n : Nat) (s : State) :
    emitLow n s = { s with out := .driveLow, now := s.now + n, lows := s.lows ++ [⟨s.now, n⟩] } := rfl

theorem emitHigh_eq (n : Nat) (s : State) : emitHigh n s = { s with out := .released, now := s.now + n } := rfl

/-! ## Outcomes -/

@[simp] theorem onNext_next (f : State → State) (s : State) : onNext f (.next s) = .next (f s) := rfl

@[simp] theorem onNext_fault (f : State → State) (r : Fault) : onNext f (.fault r) = .fault r := rfl

@[simp] theorem onNext_refused (f : State → State) (r : Refusal) : onNext f (.refused r) = .refused r := rfl

theorem onNext_eq_next {f : State → State} {o : Host.Outcome State Fault Refusal} {t : State}
    (h : onNext f o = .next t) : ∃ u, o = .next u ∧ t = f u := by
  cases o with
  | next u => exact ⟨u, rfl, by simpa using h.symm⟩
  | fault r => cases r
  | refused r => simp at h

theorem onNext_same (f : State → State) (o : Host.Outcome State Fault Refusal) (h : ∀ s, o = .next s → f s = s) :
    onNext f o = o := by
  cases o with
  | next s => simp [h s rfl]
  | fault r => rfl
  | refused r => rfl

end Sys2Proof.Machine
end

