-- ==== Sys2Proof/Laws/Wait.lean ====
section
/-! SUPPORT. `wait_until`: why the least tick of spec/40_line_adapter.md R115 is among the entry tick and the edges of the
line, and what each answer of `waitUntil` means. -/

namespace Sys2Proof.Machine

theorem leastSuch_none {p : Nat → Bool} {l : List Nat} (h : leastSuch p l = none) : ∀ c ∈ l, p c = false := by
  induction l with
  | nil => simp
  | cons c cs ih =>
    simp only [leastSuch] at h
    split at h <;> split at h <;> simp_all

theorem leastSuch_some {p : Nat → Bool} {l : List Nat} {m : Nat} (h : leastSuch p l = some m) :
    p m = true ∧ m ∈ l ∧ ∀ c ∈ l, p c = true → m ≤ c := by
  induction l generalizing m with
  | nil => simp [leastSuch] at h
  | cons c cs ih =>
    simp only [leastSuch] at h
    split at h
    · rename_i hn
      have hall := leastSuch_none hn
      split at h
      · rename_i hc
        cases h
        refine ⟨hc, by simp, fun d hd hp => ?_⟩
        rcases List.mem_cons.mp hd with rfl | hd
        · exact Nat.le_refl _
        · simp [hall d hd] at hp
      · cases h
    · rename_i k hk
      obtain ⟨hp, hm, hmin⟩ := ih hk
      split at h
      · rename_i hc
        cases h
        refine ⟨?_, ?_, fun d hd hp' => ?_⟩
        · rcases Nat.le_total c k with hck | hck
          · simpa [Nat.min_eq_left hck] using hc
          · simpa [Nat.min_eq_right hck] using hp
        · rcases Nat.le_total c k with hck | hck
          · simp [Nat.min_eq_left hck]
          · simp [Nat.min_eq_right hck, hm]
        · rcases List.mem_cons.mp hd with rfl | hd
          · exact Nat.min_le_left _ _
          · exact Nat.le_trans (Nat.min_le_right _ _) (hmin d hd hp')
      · rename_i hc
        cases h
        refine ⟨hp, by simp [hm], fun d hd hp' => ?_⟩
        rcases List.mem_cons.mp hd with rfl | hd
        · simp [hp'] at hc
        · exact hmin d hd hp'

/-- Spans as a signal hold in the ticks of the spans. -/
@[simp] theorem Signal.holds_ofSpans (l : List Span) (t : Nat) : (Signal.ofSpans l).holds t = coversAny l t := by
  simp only [Signal.ofSpans, Signal.holds, coversAny, List.any_map, Bool.or_false]
  congr 1
  funext sp
  rw [Bool.eq_iff_iff]
  simp only [Function.comp_apply, Pulse.covers, Span.covers, Nat.mod_zero, Bool.and_eq_true, decide_eq_true_eq]
  omega

@[simp] theorem Signal.holds_quiet (t : Nat) : Signal.quiet.holds t = false := rfl

theorem succ_mod_of_ne_zero {d e : Nat} (h : (d + 1) % e ≠ 0) : (d + 1) % e = d % e + 1 := by
  rcases Nat.eq_zero_or_pos e with rfl | he
  · simp
  · have hlt := Nat.mod_lt d he
    have hmod := Nat.mod_add_mod d e 1
    have hne : d % e + 1 ≠ e := fun hc => h (by rw [← hmod, hc, Nat.mod_self])
    rw [← hmod, Nat.mod_eq_of_lt (by omega)]

/-- A tick that is no edge of a pulse is in it iff the tick before it is. -/
theorem Pulse.covers_succ {p : Pulse} {lo hi t : Nat} (h : t + 1 ∉ p.edges lo hi) (h1 : lo ≤ t + 1) (h2 : t + 1 < hi) :
    p.covers (t + 1) = p.covers t := by
  rw [Bool.eq_iff_iff]
  simp only [Pulse.covers, Bool.and_eq_true, decide_eq_true_eq]
  by_cases he : p.every = 0
  · simp only [Pulse.edges, he, if_true, List.mem_cons, List.not_mem_nil, or_false, not_or] at h
    simp only [he, Nat.mod_zero]
    omega
  · simp only [Pulse.edges, if_neg he, List.mem_flatMap, List.mem_range'_1, not_exists, not_and, List.mem_cons,
      List.not_mem_nil, or_false, not_or] at h
    by_cases hs : p.start ≤ t + 1
    · have hlo : p.round lo ≤ p.round (t + 1) := Nat.div_le_div_right (by omega)
      have hhi : p.round (t + 1) ≤ p.round hi := Nat.div_le_div_right (by omega)
      have hk := h (p.round (t + 1)) ⟨hlo, by omega⟩
      simp only [Pulse.round] at hk
      have hd := Nat.div_add_mod (t + 1 - p.start) p.every
      rw [Nat.mul_comm] at hd
      have hz : (t + 1 - p.start) % p.every ≠ 0 := by omega
      have hl : (t + 1 - p.start) % p.every ≠ p.len := by omega
      have hst : p.start ≤ t := by
        by_contra hc
        have : t + 1 - p.start = 0 := by omega
        simp [this] at hz
      have hm : (t + 1 - p.start) % p.every = (t - p.start) % p.every + 1 := by
        rw [show t + 1 - p.start = t - p.start + 1 by omega] at hz ⊢
        exact succ_mod_of_ne_zero hz
      omega
    · omega

/-- A signal changes only at its edges. -/
theorem Signal.holds_succ {g : Signal} {lo hi t : Nat} (h : t + 1 ∉ g.edges lo hi) (h1 : lo ≤ t + 1) (h2 : t + 1 < hi) :
    g.holds (t + 1) = g.holds t := by
  simp only [Signal.edges, List.mem_append, not_or, List.mem_flatMap, not_exists, not_and] at h
  cases hf : g.free with
  | some f =>
    refine absurd ?_ h.2
    simp only [hf, List.mem_map, List.mem_range]
    exact ⟨t + 1 - lo, by omega, by omega⟩
  | none =>
    simp only [Signal.holds, hf, Bool.or_false]
    rw [Bool.eq_iff_iff, List.any_eq_true, List.any_eq_true]
    exact exists_congr fun p => and_congr_right fun hp => by rw [Pulse.covers_succ (h.1 p hp) h1 h2]

/-- The line changes level only at its edges. -/
theorem lineAt_succ {s : State} {hi t : Nat} (h : t + 1 ∉ lineEdges s hi) (h1 : s.now ≤ t + 1) (h2 : t + 1 < hi) :
    lineAt s (t + 1) = lineAt s t := by
  simp only [lineEdges, List.flatMap_cons, List.flatMap_nil, List.append_nil, List.mem_append, not_or] at h
  simp only [lineAt, Signal.holds_succ h.1 h1 h2, Signal.holds_succ h.2.1 h1 h2, Signal.holds_succ h.2.2 h1 h2]

theorem waitHit_iff {s : State} {v : Level} {limit t : Nat} :
    waitHit s v limit t = true ↔ s.now ≤ t ∧ t < s.now + limit ∧ lineAt s t = v := by
  simp [waitHit, and_assoc]

/-- A tick of the window with no earlier one is the entry tick or an edge. -/
theorem first_hit_is_candidate {s : State} {v : Level} {limit t : Nat} (h : waitHit s v limit t = true)
    (hmin : ∀ u, u < t → waitHit s v limit u = false) : t ∈ s.now :: lineEdges s (s.now + limit) := by
  rw [waitHit_iff] at h
  by_cases ht : t = s.now
  · simp [ht]
  · obtain ⟨k, rfl⟩ : ∃ k, t = k + 1 := ⟨t - 1, by omega⟩
    by_cases he : k + 1 ∈ lineEdges s (s.now + limit)
    · simp [he]
    · have hk := hmin k (by omega)
      rw [lineAt_succ he h.1 h.2.1] at h
      have : waitHit s v limit k = true := waitHit_iff.mpr ⟨by omega, by omega, h.2.2⟩
      simp [this] at hk

/-- Every tick of the window has a candidate at or before it. -/
theorem candidate_below {s : State} {v : Level} {limit : Nat} :
    ∀ t, waitHit s v limit t = true → ∃ c ∈ s.now :: lineEdges s (s.now + limit), waitHit s v limit c = true ∧ c ≤ t := by
  intro t
  induction t using Nat.strongRecOn with
  | ind t ih =>
    intro h
    by_cases hex : ∃ u, u < t ∧ waitHit s v limit u = true
    · obtain ⟨u, hu, hh⟩ := hex
      obtain ⟨c, hc, hcc, hle⟩ := ih u hu hh
      exact ⟨c, hc, hcc, by omega⟩
    · refine ⟨t, first_hit_is_candidate h fun u hu => ?_, h, Nat.le_refl _⟩
      cases hw : waitHit s v limit u with
      | false => rfl
      | true => exact absurd ⟨u, hu, hw⟩ hex

/-- What `Found` means. -/
theorem waitUntil_found {s : State} {v : Level} {limit t : Nat} (h : waitUntil s v limit = .found t) :
    s.now ≤ t ∧ t < s.now + limit ∧ lineAt s t = v ∧
      ∀ u, s.now ≤ u → u < t → lineAt s u ≠ v := by
  simp only [waitUntil] at h
  split at h
  · rename_i m hm
    cases h
    obtain ⟨hp, -, hmin⟩ := leastSuch_some hm
    have hw := waitHit_iff.mp hp
    refine ⟨hw.1, hw.2.1, hw.2.2, fun u h1 h2 hu => ?_⟩
    obtain ⟨c, hc, hcc, hle⟩ := candidate_below (limit := limit) u (waitHit_iff.mpr ⟨h1, by omega, hu⟩)
    have := hmin c hc hcc
    omega
  · cases h

/-- What `Expired` means. -/
theorem waitUntil_expired {s : State} {v : Level} {limit t : Nat} (h : waitUntil s v limit = .expired t) :
    t = s.now + limit ∧ ∀ u, s.now ≤ u → u < s.now + limit → lineAt s u ≠ v := by
  simp only [waitUntil] at h
  split at h
  · cases h
  · rename_i hm
    cases h
    refine ⟨rfl, fun u h1 h2 hu => ?_⟩
    obtain ⟨c, hc, hcc, -⟩ := candidate_below u (waitHit_iff.mpr ⟨h1, h2, hu⟩)
    simp [leastSuch_none hm c hc] at hcc

/-- A wait ends at the first tick of its level. -/
theorem waitUntil_eq_found {s : State} {v : Level} {limit t : Nat} (h1 : s.now ≤ t) (h2 : t < s.now + limit)
    (h3 : lineAt s t = v) (h4 : ∀ u, s.now ≤ u → u < t → lineAt s u ≠ v) : waitUntil s v limit = .found t := by
  cases hw : waitUntil s v limit with
  | found m =>
    obtain ⟨a, b, c, d⟩ := waitUntil_found hw
    have : m = t := by
      rcases Nat.lt_trichotomy m t with hlt | heq | hgt
      · exact absurd c (h4 m a hlt)
      · exact heq
      · exact absurd h3 (d t h1 hgt)
    rw [this]
  | expired e => exact absurd h3 ((waitUntil_expired hw).2 t h1 h2)

/-- A wait expires on a line that never has its level. -/
theorem waitUntil_eq_expired {s : State} {v : Level} {limit : Nat}
    (h : ∀ u, s.now ≤ u → u < s.now + limit → lineAt s u ≠ v) : waitUntil s v limit = .expired (s.now + limit) := by
  cases hw : waitUntil s v limit with
  | found m =>
    obtain ⟨a, b, c, -⟩ := waitUntil_found hw
    exact absurd c (h m a b)
  | expired e => rw [(waitUntil_expired hw).1]

theorem level_low_or_high (v : Level) : v = .low ∨ v = .high := by cases v <;> simp

end Sys2Proof.Machine
end

