-- ==== Sys2Proof/Laws/Step.lean ====
section
/-! SUPPORT. What a step can do, said once: `step` without a reset to come, the fetch of each phase, the outcome of each
command and frame as one disjunction, and the disjunction `Moves` over all steps. -/

namespace Sys2Proof.Machine

/-- With a legal configuration and no reset to come a step is the sequencer's. -/
theorem step_eq_stepCore {s : State} (hc : legalConfig s.cfg) (hr : s.resets = []) : step s = stepCore s := by
  simp only [step, hr]
  rw [if_pos hc]

theorem step_eq_next_cases {s t : State} (h : step s = .next t) :
    (s.resets = [] ∧ stepCore s = .next t) ∨
    (∃ r rest, s.resets = r :: rest ∧ r ≤ s.now ∧ t = hardReset s) ∨
    (∃ r rest u, s.resets = r :: rest ∧ s.now < r ∧ stepCore s = .next u ∧
      ((r ≤ u.now ∧ t = resetDuring r s u) ∨ (u.now < r ∧ t = u))) := by
  simp only [step] at h
  split at h
  · split at h
    · rename_i hr; exact .inl ⟨hr, h⟩
    · rename_i r rest hr
      split at h
      · rename_i hd; exact .inr (.inl ⟨r, rest, hr, hd, by simpa using h.symm⟩)
      · rename_i hd
        obtain ⟨u, hu, ht⟩ := onNext_eq_next h
        refine .inr (.inr ⟨r, rest, u, hr, by omega, hu, ?_⟩)
        split at ht
        · rename_i hd2; exact .inl ⟨hd2, ht⟩
        · rename_i hd2; exact .inr ⟨by omega, ht⟩
  · simp at h

theorem run_zero (s : State) : run 0 s = .next s := rfl

theorem run_succ {s t : State} (k : Nat) (h : step s = .next t) : run (k + 1) s = run k t := by
  simp only [run, h]

/-- A run goes on where a shorter one ended. -/
theorem run_add {s t : State} (j k : Nat) (h : run j s = .next t) : run (j + k) s = run k t := by
  induction j generalizing s with
  | zero => rw [run_zero] at h; cases h; rw [Nat.zero_add]
  | succ j ih =>
    rw [show j + 1 + k = (j + k) + 1 by omega]
    simp only [run] at h ⊢
    split at h
    · exact ih h
    · cases h
    · cases h

/-! ## What each instruction can answer -/

/-- The command decoder answers only with commands. -/
theorem decodeCmd_not_symbol {w : Word} {i : Instr} (h : decodeCmd w = .ok i) : isSymbol i = false := by
  simp only [decodeCmd] at h
  repeat' split at h
  all_goals first
    | (cases h; rfl)
    | cases h

theorem decodeHdr_not_symbol (b : Byte) : isSymbol (decodeHdr b) = false := by
  unfold decodeHdr; split <;> rfl

/-- A header decodes to the frame kind of its direction bit, with its address. -/
theorem decodeHdr_cases (b : Byte) :
    (headerDir b = 0 ∧ decodeHdr b = .frameRdreq (headerAddr b)) ∨
    (headerDir b ≠ 0 ∧ decodeHdr b = .frameData (headerAddr b)) := by
  unfold decodeHdr; split <;> simp_all

theorem execCmdInit_cases {s t : State} (h : execCmdInit s = .next t) :
    (s.setupOk = true ∧ t = returnOk 0 (flagsInitOk (releaseHigh s))) ∨
    (s.setupOk = false ∧ t = raiseStatus .notReady (flagsInitFailed (releaseHigh s))) := by
  simp only [execCmdInit] at h
  split at h
  · exact .inl ⟨‹_›, by simpa using h.symm⟩
  · exact .inr ⟨by simpa using ‹¬ s.setupOk = true›, by simpa using h.symm⟩

theorem execCmdOpen_cases {mode : Byte} {s t : State} (h : execCmdOpen mode s = .next t) :
    (s.initialized = false ∧ t = raiseStatus .notInitialized s) ∨
    (s.initialized = true ∧ s.busy = true ∧ t = raiseStatus .alreadyOpen s) ∨
    (s.initialized = true ∧ s.busy = false ∧ mode ≠ 0 ∧ t = raiseStatus .unsupportedMode s) ∨
    (s.initialized = true ∧ s.busy = false ∧ mode = 0 ∧ s.cfg.role = .master ∧
      t = { setBusy s with phase := .opening .select }) ∨
    (s.initialized = true ∧ s.busy = false ∧ mode = 0 ∧ s.cfg.role = .slave ∧ t = returnOk 0 (setBusy s)) := by
  simp only [execCmdOpen] at h
  split at h
  · exact .inl ⟨‹_›, by simpa using h.symm⟩
  · have hi : s.initialized = true := by simpa using ‹¬ s.initialized = false›
    split at h
    · exact .inr (.inl ⟨hi, ‹_›, by simpa using h.symm⟩)
    · have hb : s.busy = false := by simpa using ‹¬ s.busy = true›
      split at h
      · exact .inr (.inr (.inl ⟨hi, hb, ‹_›, by simpa using h.symm⟩))
      · have hm : mode = 0 := by simpa using ‹¬ mode ≠ 0›
        split at h
        · exact .inr (.inr (.inr (.inl ⟨hi, hb, hm, ‹_›, by simpa using h.symm⟩)))
        · exact .inr (.inr (.inr (.inr ⟨hi, hb, hm, ‹_›, by simpa using h.symm⟩)))

theorem execCmdClose_cases {s t : State} (h : execCmdClose s = .next t) :
    (s.initialized = false ∧ t = raiseStatus .notInitialized s) ∨
    (s.initialized = true ∧ s.cfg.role = .master ∧ t = returnOk 0 (clearBusy (clearPreamble (releaseHigh s)))) ∨
    (s.initialized = true ∧ s.cfg.role = .slave ∧ t = returnOk 0 (clearBusy s)) := by
  simp only [execCmdClose] at h
  split at h
  · exact .inl ⟨‹_›, by simpa using h.symm⟩
  · have hi : s.initialized = true := by simpa using ‹¬ s.initialized = false›
    split at h
    · exact .inr (.inl ⟨hi, ‹_›, by simpa using h.symm⟩)
    · exact .inr (.inr ⟨hi, ‹_›, by simpa using h.symm⟩)

theorem execCmdRead_cases {maxLen : Byte} {s t : State} (h : execCmdRead maxLen s = .next t) :
    (s.initialized = false ∧ t = raiseStatus .notInitialized s) ∨
    (s.initialized = true ∧
      t = { clearPreamble s with fb := [], phase := .receiving .seekLow (rxLimit maxLen) }) := by
  simp only [execCmdRead] at h
  split at h
  · exact .inl ⟨‹_›, by simpa using h.symm⟩
  · exact .inr ⟨by simpa using ‹¬ s.initialized = false›, by simpa using h.symm⟩

theorem execCmdWrite_cases {addr : Addr} {dir : BitVec 1} {len : Byte} {s t : State}
    (h : execCmdWrite addr dir len s = .next t) :
    len.toNat ≤ 32 ∧
    ((s.initialized = false ∧ t = raiseStatus .notInitialized s) ∨
     (s.initialized = true ∧ s.cfg.role = .slave ∧ s.writeEnabled = false ∧ t = raiseStatus .writeNotPermitted s) ∨
     (s.initialized = true ∧ s.cfg.role = .master ∧
       t = beginTransmit (txHeader s.cfg addr dir) (txPayload s len) s) ∨
     (s.initialized = true ∧ s.cfg.role = .slave ∧ s.writeEnabled = true ∧
       t = beginTransmit (txHeader s.cfg addr dir) (txPayload s len) (takeTurn s))) := by
  simp only [execCmdWrite] at h
  split at h
  · cases h
  · refine ⟨by omega, ?_⟩
    split at h
    · exact .inl ⟨‹_›, by simpa using h.symm⟩
    · have hi : s.initialized = true := by simpa using ‹¬ s.initialized = false›
      split at h
      · exact .inr (.inr (.inl ⟨hi, ‹_›, by simpa using h.symm⟩))
      · split at h
        · exact .inr (.inl ⟨hi, ‹_›, ‹_›, by simpa using h.symm⟩)
        · exact .inr (.inr (.inr ⟨hi, ‹_›, by simpa using ‹¬ s.writeEnabled = false›, by simpa using h.symm⟩))

/-- Transmit begins with the first byte's first bit, or with the preamble. -/
theorem beginTransmit_cases (h : Byte) (p : List Byte) (s : State) :
    (s.cfg.role = .master ∧ s.preambleSent = true ∧
      beginTransmit h p s = { clearPreamble s with fb := frameBytes h p, phase := .transmitting (.bit 0 7) }) ∨
    (¬ (s.cfg.role = .master ∧ s.preambleSent = true) ∧
      beginTransmit h p s = { s with fb := frameBytes h p, phase := .transmitting (.preamble .select) }) := by
  unfold beginTransmit
  split
  · rename_i hc; exact .inl ⟨hc.1, hc.2, rfl⟩
  · rename_i hc; exact .inr ⟨hc, rfl⟩

/-- A frame without a reason to discard it has passed steps 3, 4 and 5. -/
theorem discardReason_none {a : Addr} {s : State} (h : discardReason a s = none) :
    2 ≤ s.fb.length ∧ (s.cfg.role = .slave → a = s.cfg.ownAddress) ∧ checksumHolds s.fb = true := by
  simp only [discardReason] at h
  split at h
  · cases h
  · split at h
    · cases h
    · rename_i h1 h2
      split at h
      · cases h
      · rename_i h3
        refine ⟨by omega, fun hs => ?_, by simpa using h3⟩
        by_cases ha : a = s.cfg.ownAddress
        · exact ha
        · exact absurd ⟨hs, ha⟩ h2

theorem execFrameRdreq_cases {a : Addr} {s t : State} (h : execFrameRdreq a s = .next t) :
    (∃ r, discardReason a s = some r ∧ t = discardFrame r s) ∨
    (discardReason a s = none ∧ t = deliver (turnGrant s)) := by
  simp only [execFrameRdreq] at h
  split at h
  · exact .inl ⟨_, ‹_›, by simpa using h.symm⟩
  · exact .inr ⟨‹_›, by simpa using h.symm⟩

theorem execFrameData_cases {a : Addr} {s t : State} (h : execFrameData a s = .next t) :
    (∃ r, discardReason a s = some r ∧ t = discardFrame r s) ∨ (discardReason a s = none ∧ t = deliver s) := by
  simp only [execFrameData] at h
  split at h
  · exact .inl ⟨_, ‹_›, by simpa using h.symm⟩
  · exact .inr ⟨‹_›, by simpa using h.symm⟩

/-! ## What each wait of Receive can answer -/

theorem waitOrTimeout_cases (v : Level) (f : State → State) (s : State) :
    (∃ t, waitUntil s v s.cfg.tTimeout = .found t ∧ waitOrTimeout v f s = f (advanceTo t s)) ∨
    (waitUntil s v s.cfg.tTimeout = .expired (s.now + s.cfg.tTimeout) ∧
      waitOrTimeout v f s = raiseStatus .timeout (advanceTo (s.now + s.cfg.tTimeout) s)) := by
  unfold waitOrTimeout
  split
  · rename_i t ht; exact .inl ⟨t, ht, rfl⟩
  · rename_i t ht
    have he := (waitUntil_expired ht).1
    subst he
    exact .inr ⟨ht, rfl⟩

theorem rxBitFall_cases (i : Nat) (acc : Byte) (tRise m : Nat) (s : State) :
    (∃ t, waitUntil s .low (stopLimit s.cfg) = .found t ∧
      rxBitFall i acc tRise m s = rxBitDone i acc (bitOf s.cfg (t - tRise)) m (advanceTo t s)) ∨
    (waitUntil s .low (stopLimit s.cfg) = .expired (s.now + stopLimit s.cfg) ∧
      rxBitFall i acc tRise m s = rxAt .judge m (advanceTo (s.now + stopLimit s.cfg) s)) := by
  unfold rxBitFall
  split
  · rename_i t ht; exact .inl ⟨t, ht, rfl⟩
  · rename_i t ht
    have he := (waitUntil_expired ht).1
    subst he
    exact .inr ⟨ht, rfl⟩

theorem rxByteDone_cases (b : Byte) (m : Nat) (s : State) :
    (s.fb.length + 1 < m + 2 ∧ rxByteDone b m s = { rxAt (.bitRise 7 0) m s with fb := s.fb ++ [b] }) ∨
    (m + 2 ≤ s.fb.length + 1 ∧ rxByteDone b m s = { rxAt .judge m s with fb := s.fb ++ [b] }) := by
  unfold rxByteDone
  split
  · exact .inl ⟨‹_›, rfl⟩
  · exact .inr ⟨by omega, rfl⟩

/-! ## All steps -/

/-- A step of the sequencer, by the place it starts from. -/
inductive Moves (s : State) : State → Prop
  | idle (hp : s.phase = .ready) (hi : s.inputs = []) : Moves s { s with now := s.now + 1 }
  | wait (n : Nat) (rest : List Input) (hp : s.phase = .ready) (hi : s.inputs = .wait n :: rest) :
      Moves s { s with now := s.now + n, inputs := rest }
  | writeTx (i : Fin 32) (v : Byte) (rest : List Input) (hp : s.phase = .ready) (hi : s.inputs = .writeTx i v :: rest) :
      Moves s { s with txbuf := s.txbuf.set i v, inputs := rest }
  | pinSetup (ok : Bool) (rest : List Input) (hp : s.phase = .ready) (hi : s.inputs = .pinSetup ok :: rest) :
      Moves s { s with setupOk := ok, inputs := rest }
  | command (w : Word) (rest : List Input) (i : Instr) (t : State) (hp : s.phase = .ready)
      (hi : s.inputs = .issue w :: rest) (hd : decodeCmd w = .ok i) (he : exec i (accept w rest s) = .next t) : Moves s t
  | opening (p : PreamblePos) (t : State) (hp : s.phase = .opening p) (he : exec (preambleSymbol p) s = .next t) :
      Moves s (afterSymbol t)
  | transmitting (p : TxPos) (t : State) (hp : s.phase = .transmitting p) (he : exec (txSymbol s.fb p) s = .next t) :
      Moves s (afterSymbol t)
  | seekLow (m : Nat) (hp : s.phase = .receiving .seekLow m) : Moves s (rxSeekLow m s)
  | seekRise (tLow m : Nat) (hp : s.phase = .receiving (.seekRise tLow) m) : Moves s (rxSeekRise tLow m s)
  | seekFall (tRise m : Nat) (hp : s.phase = .receiving (.seekFall tRise) m) : Moves s (rxSeekFall tRise m s)
  | bitRise (i : Nat) (acc : Byte) (m : Nat) (hp : s.phase = .receiving (.bitRise i acc) m) :
      Moves s (rxBitRise i acc m s)
  | bitFall (i : Nat) (acc : Byte) (tRise m : Nat) (hp : s.phase = .receiving (.bitFall i acc tRise) m) :
      Moves s (rxBitFall i acc tRise m s)
  | noBytes (m : Nat) (hp : s.phase = .receiving .judge m) (hf : s.fb = []) : Moves s (discardFrame .malformed s)
  | frame (m : Nat) (h : Byte) (rest : List Byte) (t : State) (hp : s.phase = .receiving .judge m)
      (hf : s.fb = h :: rest) (he : exec (decodeHdr h) s = .next t) : Moves s t

theorem preambleSymbol_isSymbol (p : PreamblePos) : isSymbol (preambleSymbol p) = true := by cases p <;> rfl

theorem txSymbol_isSymbol (fb : List Byte) (p : TxPos) : isSymbol (txSymbol fb p) = true := by
  cases p with
  | preamble p => exact preambleSymbol_isSymbol p
  | bit k i => simp only [txSymbol, bitSymbol]; split <;> rfl
  | stop => rfl

/-- Every step of the sequencer is one of `Moves`. -/
theorem stepCore_moves {s t : State} (h : stepCore s = .next t) : Moves s t := by
  unfold stepCore fetch at h
  split at h
  · rename_i i u hf
    split at hf
    · rename_i hp
      unfold fetchReady at hf
      split at hf
      · cases hf
      · cases hf
      · cases hf
      · cases hf
      · rename_i w rest hi
        split at hf
        · rename_i j hd
          cases hf
          obtain ⟨v, hv, ht⟩ := onNext_eq_next h
          rw [settle, decodeCmd_not_symbol hd] at ht
          subst ht
          exact .command w rest _ _ hp hi hd hv
        · cases hf
    · rename_i p hp
      cases hf
      obtain ⟨v, hv, ht⟩ := onNext_eq_next h
      rw [settle, preambleSymbol_isSymbol] at ht
      subst ht
      exact .opening p _ hp hv
    · rename_i p hp
      cases hf
      obtain ⟨v, hv, ht⟩ := onNext_eq_next h
      rw [settle, txSymbol_isSymbol] at ht
      subst ht
      exact .transmitting p _ hp hv
    · rename_i p m hp
      unfold fetchReceive at hf
      split at hf
      · cases hf
      · cases hf
      · cases hf
      · cases hf
      · cases hf
      · unfold rxJudge at hf
        split at hf
        · cases hf
        · rename_i b rest hfb
          cases hf
          obtain ⟨v, hv, ht⟩ := onNext_eq_next h
          rw [settle, decodeHdr_not_symbol] at ht
          subst ht
          exact .frame m b rest _ hp hfb hv
  · rename_i u hf
    cases h
    split at hf
    · rename_i hp
      unfold fetchReady at hf
      split at hf
      · rename_i hi; cases hf; exact .idle hp hi
      · rename_i n rest hi; cases hf; exact .wait n rest hp hi
      · rename_i i v rest hi; cases hf; exact .writeTx i v rest hp hi
      · rename_i ok rest hi; cases hf; exact .pinSetup ok rest hp hi
      · split at hf <;> cases hf
    · cases hf
    · cases hf
    · rename_i p m hp
      unfold fetchReceive at hf
      split at hf
      · cases hf; exact .seekLow m hp
      · cases hf; exact .seekRise _ m hp
      · cases hf; exact .seekFall _ m hp
      · cases hf; exact .bitRise _ _ m hp
      · cases hf; exact .bitFall _ _ _ m hp
      · unfold rxJudge at hf
        split at hf
        · rename_i hfb; cases hf; exact .noBytes m hp hfb
        · cases hf
  · cases h

end Sys2Proof.Machine
end

