-- ==== Sys2Proof/Laws/Waveform.lean ====
section
/-! SUPPORT. Sets of lows as lists of spans, the waveform of a sequence of symbols, and what a symbol does to a node in terms
of that waveform. -/

namespace Sys2Proof.Machine

/-! ## Spans -/

theorem coversAny_append (l l' : List Span) (t : Nat) : coversAny (l ++ l') t = (coversAny l t || coversAny l' t) := by
  simp [coversAny]

theorem coversAny_cons (sp : Span) (l : List Span) (t : Nat) :
    coversAny (sp :: l) t = (sp.covers t || coversAny l t) := by
  simp [coversAny]

/-- A tick before all spans is in none. -/
theorem coversAny_before {l : List Span} {t a : Nat} (h : ∀ sp ∈ l, a ≤ sp.start) (ht : t < a) :
    coversAny l t = false := by
  simp only [coversAny, List.any_eq_false]
  intro sp hsp
  have hs := h sp hsp
  simp [Span.covers]
  omega

/-- A tick after all spans is in none. -/
theorem coversAny_after {l : List Span} {t a : Nat} (h : ∀ sp ∈ l, sp.start + sp.len ≤ a) (ht : a ≤ t) :
    coversAny l t = false := by
  simp only [coversAny, List.any_eq_false]
  intro sp hsp
  have hs := h sp hsp
  simp [Span.covers]
  omega

/-- The clipped record is the record before the tick. -/
theorem coversAny_clipSpans (r : Nat) (l : List Span) (x : Nat) :
    coversAny (clipSpans r l) x = true ↔ (x < r ∧ coversAny l x = true) := by
  induction l with
  | nil => simp [clipSpans, coversAny]
  | cons a l ih =>
    simp only [clipSpans]
    split
    · have e : (Span.mk a.start (min a.len (r - a.start))).covers x = true ↔ x < r ∧ a.covers x = true := by
        simp [Span.covers]; omega
      rw [coversAny_cons, coversAny_cons, Bool.or_eq_true, Bool.or_eq_true, ih, e, and_or_left]
    · have e : ¬ (x < r ∧ a.covers x = true) := by simp [Span.covers]; omega
      rw [coversAny_cons, Bool.or_eq_true, ih, and_or_left]
      simp only [e, false_or]

/-! ## Waveforms -/

theorem waveTicks_append (c : NodeConfig) (l l' : List Instr) :
    waveTicks c (l ++ l') = waveTicks c l + waveTicks c l' := by
  induction l with
  | nil => simp [waveTicks]
  | cons i l ih => simp [waveTicks, ih, Nat.add_assoc]

theorem waveLows_append (c : NodeConfig) (l l' : List Instr) (t : Nat) :
    waveLows c t (l ++ l') = waveLows c t l ++ waveLows c (t + waveTicks c l) l' := by
  induction l generalizing t with
  | nil => simp [waveLows, waveTicks]
  | cons i l ih => simp [waveLows, waveTicks, ih, Nat.add_assoc]

/-- The lows of a symbol lie within it. -/
theorem symbolLows_within (c : NodeConfig) (t : Nat) (i : Instr) :
    ∀ sp ∈ symbolLows c t i, t ≤ sp.start ∧ sp.start + sp.len ≤ t + symbolTicks c i := by
  cases i <;> simp [symbolLows, symbolTicks] <;> omega

/-- The lows of a waveform lie within it. -/
theorem waveLows_within (c : NodeConfig) (l : List Instr) (t : Nat) :
    ∀ sp ∈ waveLows c t l, t ≤ sp.start ∧ sp.start + sp.len ≤ t + waveTicks c l := by
  induction l generalizing t with
  | nil => simp [waveLows]
  | cons i l ih =>
    intro sp h
    rcases List.mem_append.mp h with h | h
    · have hw := symbolLows_within c t i sp h
      simp only [waveTicks]
      omega
    · have hw := ih _ sp h
      simp only [waveTicks]
      omega

/-! ## Symbols -/

/-- The output after a symbol: only `SELECT` leaves the line driven (spec/10_state.md R32). -/
def outAfter : Instr → Output
  | .symSelect => .driveLow
  | _ => .released

/-- A symbol puts its waveform on the line and changes nothing else. -/
theorem exec_symbol {i : Instr} (s : State) (h : isSymbol i = true) :
    exec i s = .next
      { s with out := outAfter i, now := s.now + symbolTicks s.cfg i, lows := s.lows ++ symbolLows s.cfg s.now i } := by
  cases i <;> simp [isSymbol] at h <;>
    simp [exec, execSymSelect, execSymStart, execSymBit0, execSymBit1, execSymStop, emitLow_eq, emitHigh_eq, outAfter,
      symbolTicks, symbolLows, tSelect, tStart, tSync, tHigh0, tHigh1, tStopLow, tStopHold] <;> omega

end Sys2Proof.Machine
end

