-- ==== Sys2Proof/Laws/Line.lean ====
section
/-! SUPPORT. What leaves the line alone: every instruction that is no symbol, and every step of a node that is `Ready` or in
READ. -/

namespace Sys2Proof.Machine

/-- The inputs of the line, and what the node has put on it, stay as they were, and the output is at most released. -/
structure Quiet (s t : State) : Prop where
  lows : t.lows = s.lows
  peersLow : t.peersLow = s.peersLow
  envLow : t.envLow = s.envLow
  envHigh : t.envHigh = s.envHigh
  out : t.out = .driveLow → s.out = .driveLow

theorem Quiet.of_eq {s t : State} (h1 : t.lows = s.lows) (h2 : t.peersLow = s.peersLow) (h3 : t.envLow = s.envLow)
    (h4 : t.envHigh = s.envHigh) (h5 : t.out = s.out) : Quiet s t :=
  ⟨h1, h2, h3, h4, by rw [h5]; exact id⟩

/-- An instruction that is no symbol leaves the line alone and takes no time. -/
theorem exec_quiet {i : Instr} {s t : State} (hi : isSymbol i = false) (h : exec i s = .next t) :
    Quiet s t ∧ t.now = s.now := by
  cases i with
  | cmdInit =>
    rcases execCmdInit_cases h with ⟨-, rfl⟩ | ⟨-, rfl⟩ <;>
      exact ⟨⟨rfl, rfl, rfl, rfl, by simp [flagsInitOk, flagsInitFailed]⟩, rfl⟩
  | cmdOpen m =>
    rcases execCmdOpen_cases h with ⟨-, rfl⟩ | ⟨-, -, rfl⟩ | ⟨-, -, -, rfl⟩ | ⟨-, -, -, -, rfl⟩ | ⟨-, -, -, -, rfl⟩ <;>
      exact ⟨.of_eq rfl rfl rfl rfl rfl, rfl⟩
  | cmdClose =>
    rcases execCmdClose_cases h with ⟨-, rfl⟩ | ⟨-, -, rfl⟩ | ⟨-, -, rfl⟩ <;>
      exact ⟨⟨rfl, rfl, rfl, rfl, by simp⟩, rfl⟩
  | cmdRead m => rcases execCmdRead_cases h with ⟨-, rfl⟩ | ⟨-, rfl⟩ <;> exact ⟨.of_eq rfl rfl rfl rfl rfl, rfl⟩
  | cmdWrite a d l =>
    obtain ⟨-, h⟩ := execCmdWrite_cases h
    rcases h with ⟨-, rfl⟩ | ⟨-, -, -, rfl⟩ | ⟨-, -, rfl⟩ | ⟨-, -, -, rfl⟩
    · exact ⟨.of_eq rfl rfl rfl rfl rfl, rfl⟩
    · exact ⟨.of_eq rfl rfl rfl rfl rfl, rfl⟩
    · unfold beginTransmit; split <;> exact ⟨.of_eq rfl rfl rfl rfl rfl, rfl⟩
    · unfold beginTransmit; split <;> exact ⟨.of_eq rfl rfl rfl rfl rfl, rfl⟩
  | frameRdreq a =>
    rcases execFrameRdreq_cases h with ⟨-, -, rfl⟩ | ⟨-, rfl⟩
    · exact ⟨.of_eq rfl rfl rfl rfl rfl, rfl⟩
    · unfold turnGrant; split <;> exact ⟨.of_eq rfl rfl rfl rfl rfl, rfl⟩
  | frameData a =>
    rcases execFrameData_cases h with ⟨-, -, rfl⟩ | ⟨-, rfl⟩ <;> exact ⟨.of_eq rfl rfl rfl rfl rfl, rfl⟩
  | symSelect | symStart | symBit0 | symBit1 | symStop => cases hi

theorem waitOrTimeout_quiet (v : Level) (f : State → State) (s : State) (hf : ∀ u, Quiet u (f u)) :
    Quiet s (waitOrTimeout v f s) := by
  rcases waitOrTimeout_cases v f s with ⟨a, -, e⟩ | ⟨-, e⟩ <;> rw [e]
  · exact ⟨(hf _).lows, (hf _).peersLow, (hf _).envLow, (hf _).envHigh, (hf _).out⟩
  · exact .of_eq rfl rfl rfl rfl rfl

/-- A step of a node that is `Ready` or in READ leaves the line alone. -/
theorem moves_quiet {s t : State} (h : Moves s t) (hp : s.phase = .ready ∨ ∃ p m, s.phase = .receiving p m) :
    Quiet s t := by
  cases h with
  | idle | wait | writeTx | pinSetup | noBytes => exact .of_eq rfl rfl rfl rfl rfl
  | command w rest i t _ _ hd he =>
    have q := (exec_quiet (decodeCmd_not_symbol hd) he).1
    exact ⟨q.lows, q.peersLow, q.envLow, q.envHigh, q.out⟩
  | opening p u h => rcases hp with hp | ⟨p, m, hp⟩ <;> rw [hp] at h <;> cases h
  | transmitting p u h => rcases hp with hp | ⟨p, m, hp⟩ <;> rw [hp] at h <;> cases h
  | seekLow m => exact waitOrTimeout_quiet _ _ _ fun u => .of_eq rfl rfl rfl rfl rfl
  | seekRise t m => exact waitOrTimeout_quiet _ _ _ fun u => by split <;> exact .of_eq rfl rfl rfl rfl rfl
  | seekFall t m => exact waitOrTimeout_quiet _ _ _ fun u => by split <;> exact .of_eq rfl rfl rfl rfl rfl
  | bitRise => exact waitOrTimeout_quiet _ _ _ fun u => .of_eq rfl rfl rfl rfl rfl
  | bitFall i acc tr m =>
    rcases rxBitFall_cases i acc tr m s with ⟨a, -, e⟩ | ⟨-, e⟩ <;> rw [e]
    · cases i with
      | succ => exact .of_eq rfl rfl rfl rfl rfl
      | zero => simp only [rxBitDone, rxByteDone]; split <;> exact .of_eq rfl rfl rfl rfl rfl
    · exact .of_eq rfl rfl rfl rfl rfl
  | frame m h rest t _ _ he => exact (exec_quiet (decodeHdr_not_symbol h) he).1

end Sys2Proof.Machine
end

