-- ==== Sys2Proof/Laws/PerInstr.lean ====
section
/-! SUPPORT. Facts about every instruction as syntax, one lemma a constructor. Family `Format`: which of the three formats of
the table an instruction is encoded in, and that a line symbol's pattern is as long, in bit periods, as the symbol lasts
(spec/30_encoding.md R80, R107; spec/70_reset_and_hazards.md R230). -/

namespace Sys2Proof.Laws.Format

/-- The encoding of an instruction is a command word, a symbol pattern or a header byte according to its row's format; only
symbols last, and each lasts one bit period a character of its pattern. -/
def Statement (i : Instr) : Prop :=
  (∃ w, encode i = .cmd w ∧ ∀ c, Machine.symbolTicks c i = 0) ∨
  (∃ p, encode i = .sym p ∧ p ≠ [] ∧ ∀ c, Machine.symbolTicks c i = p.length * c.bitPeriod) ∨
  (∃ b, encode i = .hdr b ∧ ∀ c, Machine.symbolTicks c i = 0)

theorem cmdInit : Statement .cmdInit := .inl ⟨_, rfl, fun _ => rfl⟩

theorem cmdOpen (mode : Byte) : Statement (.cmdOpen mode) := .inl ⟨_, rfl, fun _ => rfl⟩

theorem cmdClose : Statement .cmdClose := .inl ⟨_, rfl, fun _ => rfl⟩

theorem cmdRead (maxLen : Byte) : Statement (.cmdRead maxLen) := .inl ⟨_, rfl, fun _ => rfl⟩

theorem cmdWrite (addr : Addr) (dir : BitVec 1) (len : Byte) : Statement (.cmdWrite addr dir len) :=
  .inl ⟨_, rfl, fun _ => rfl⟩

theorem symSelect : Statement .symSelect := .inr (.inl ⟨_, rfl, by decide, fun _ => rfl⟩)

theorem symStart : Statement .symStart := .inr (.inl ⟨_, rfl, by decide, fun _ => rfl⟩)

theorem symBit0 : Statement .symBit0 := .inr (.inl ⟨_, rfl, by decide, fun _ => rfl⟩)

theorem symBit1 : Statement .symBit1 := .inr (.inl ⟨_, rfl, by decide, fun _ => rfl⟩)

theorem symStop : Statement .symStop := .inr (.inl ⟨_, rfl, by decide, fun _ => rfl⟩)

theorem frameRdreq (addr : Addr) : Statement (.frameRdreq addr) := .inr (.inr ⟨_, rfl, fun _ => rfl⟩)

theorem frameData (addr : Addr) : Statement (.frameData addr) := .inr (.inr ⟨_, rfl, fun _ => rfl⟩)

end Sys2Proof.Laws.Format
end

