-- ==== Sys2Proof/Laws/Receive.lean ====
section
/-! SUPPORT. The waits of Receive, one equation for each position and each answer of its wait. -/

namespace Sys2Proof.Machine

theorem waitOrTimeout_found {s : State} {v : Level} {f : State → State} {t : Nat}
    (h : waitUntil s v s.cfg.tTimeout = .found t) : waitOrTimeout v f s = f (advanceTo t s) := by
  simp only [waitOrTimeout, h]

theorem waitOrTimeout_expired {s : State} {v : Level} {f : State → State} {t : Nat}
    (h : waitUntil s v s.cfg.tTimeout = .expired t) :
    waitOrTimeout v f s = raiseStatus .timeout (advanceTo t s) := by
  simp only [waitOrTimeout, h]

theorem rxSeekLow_found {s : State} {m t : Nat} (h : waitUntil s .low s.cfg.tTimeout = .found t) :
    rxSeekLow m s = { s with now := t, phase := .receiving (.seekRise t) m } := by
  rw [rxSeekLow, waitOrTimeout_found h]; rfl

theorem rxSeekRise_select {s : State} {tLow m t : Nat} (h : waitUntil s .high s.cfg.tTimeout = .found t)
    (hs : isSelect s.cfg (t - tLow)) :
    rxSeekRise tLow m s = { s with now := t, phase := .receiving (.seekFall t) m } := by
  rw [rxSeekRise, waitOrTimeout_found h,
    if_pos (show isSelect (advanceTo t s).cfg ((advanceTo t s).now - tLow) from hs)]
  rfl

theorem rxSeekRise_noise {s : State} {tLow m t : Nat} (h : waitUntil s .high s.cfg.tTimeout = .found t)
    (hs : ¬ isSelect s.cfg (t - tLow)) : rxSeekRise tLow m s = discardFrame .noise (advanceTo t s) := by
  rw [rxSeekRise, waitOrTimeout_found h,
    if_neg (show ¬ isSelect (advanceTo t s).cfg ((advanceTo t s).now - tLow) from hs)]

theorem rxSeekFall_start {s : State} {tRise m t : Nat} (h : waitUntil s .low s.cfg.tTimeout = .found t)
    (hs : isStart s.cfg (t - tRise)) :
    rxSeekFall tRise m s = { s with now := t, fb := [], phase := .receiving (.bitRise 7 0) m } := by
  rw [rxSeekFall, waitOrTimeout_found h,
    if_pos (show isStart (advanceTo t s).cfg ((advanceTo t s).now - tRise) from hs)]
  rfl

theorem rxSeekFall_noise {s : State} {tRise m t : Nat} (h : waitUntil s .low s.cfg.tTimeout = .found t)
    (hs : ¬ isStart s.cfg (t - tRise)) : rxSeekFall tRise m s = discardFrame .noise (advanceTo t s) := by
  rw [rxSeekFall, waitOrTimeout_found h,
    if_neg (show ¬ isStart (advanceTo t s).cfg ((advanceTo t s).now - tRise) from hs)]

theorem rxBitRise_found {s : State} {i m t : Nat} {acc : Byte} (h : waitUntil s .high s.cfg.tTimeout = .found t) :
    rxBitRise i acc m s = { s with now := t, phase := .receiving (.bitFall i acc t) m } := by
  rw [rxBitRise, waitOrTimeout_found h]; rfl

theorem rxBitFall_found {s : State} {i tRise m t : Nat} {acc : Byte}
    (h : waitUntil s .low (stopLimit s.cfg) = .found t) :
    rxBitFall i acc tRise m s = rxBitDone i acc (bitOf s.cfg (t - tRise)) m (advanceTo t s) := by
  simp only [rxBitFall, h]

theorem rxBitFall_stop {s : State} {i tRise m t : Nat} {acc : Byte}
    (h : waitUntil s .low (stopLimit s.cfg) = .expired t) :
    rxBitFall i acc tRise m s = { s with now := t, phase := .receiving .judge m } := by
  simp only [rxBitFall, h]; rfl

/-- One more bit of a byte: the bits so far are the byte's top bits. -/
theorem shiftIn_top (b : Byte) (i : Nat) (h : i < 8) : shiftIn (b >>> (i + 1)) (b.getLsbD i) = b >>> i := by
  have hi : i = 0 ∨ i = 1 ∨ i = 2 ∨ i = 3 ∨ i = 4 ∨ i = 5 ∨ i = 6 ∨ i = 7 := by omega
  clear h
  revert b
  rcases hi with rfl | rfl | rfl | rfl | rfl | rfl | rfl | rfl <;> decide

end Sys2Proof.Machine
end

