-- ==== Sys2Proof/Tests/Slice0.lean ====
section
/-! SUPPORT. Tests, each of one step or one call, with the expected values of spec/95_test_vectors.md (the vector's number
stands beside the test) or of an example in the rule cited; and for every obligation with hypotheses a witness: a concrete
state and operands that meet all of them, one for each clause. -/

namespace Sys2Proof.Tests

open Sys2Proof Sys2Proof.Machine Sys2Proof.Claims

/-! ## Helpers -/

/-- A field of the next state. -/
def after {α : Type} (f : State → α) : Host.Outcome State Fault Refusal → Option α
  | .next t => some (f t)
  | .fault _ => none
  | .refused _ => none

/-- The four flags, in the order of the spec's programs: initialized, busy, write_enabled, preamble_sent. -/
def flags (s : State) : Bool × Bool × Bool × Bool := (s.initialized, s.busy, s.writeEnabled, s.preambleSent)

/-- An open Slave with address 1 (spec/95_test_vectors.md: `S (1,1,0,0)`). -/
def slave : State := { State.reset with initialized := true, busy := true }

/-- The reference configuration as a Master. -/
def masterCfg : NodeConfig := { NodeConfig.reference with role := .master }

/-- An open Master after its preamble (`M (1,1,1,1)`). -/
def master : State :=
  { State.resetOf masterCfg with initialized := true, busy := true, writeEnabled := true, preambleSent := true }

/-- A Slave in READ 32 at a position, at tick `t`, on a line with the given lows. -/
def reading (p : RxPos) (t : Nat) (lows : List Span) : State :=
  { slave with phase := .receiving p 32, now := t, peersLow := .ofSpans lows }

/-- A Slave about to judge a candidate frame. -/
def judging (fb : List Byte) : State := { slave with fb := fb, phase := .receiving .judge 32 }

/-! ## Well-formedness -/

/-- spec/30_encoding.md R100, R102: `len` 33 is reserved, 32 is not. -/
theorem test_wf_refuses_long_payload : (Instr.cmdWrite 1 1 33).wf = false ∧ (Instr.cmdWrite 1 1 32).wf = true := by decide

/-! ## Decoding and encoding -/

/-- spec/30_encoding.md R96, R98. -/
theorem test_decode_init_close :
    decodeCmd 0b00000001000000000000000000000000 = .ok .cmdInit ∧
    decodeCmd 0b00000011000000000000000000000000 = .ok .cmdClose := by decide

/-- spec/30_encoding.md R97, R99: operand `A` in bits 23:16. -/
theorem test_decode_open_read :
    decodeCmd 0b00000010000001010000000000000000 = .ok (.cmdOpen 5) ∧
    decodeCmd 0b00000100001000000000000000000000 = .ok (.cmdRead 32) := by decide

/-- spec/30_encoding.md R100; P1: `WRITE 1, 1, [5 bytes]` is 0x05050300, P5: `WRITE 0x7F, 1, [3 bytes]` is 0x0503FF00. -/
theorem test_decode_write :
    decodeCmd 0b00000101000001010000001100000000 = .ok (.cmdWrite 1 1 5) ∧
    decodeCmd 0x0503FF00 = .ok (.cmdWrite 0x7F 1 3) := by decide

/-- spec/30_encoding.md R102: each kind of reserved word, by name. -/
theorem test_decode_reserved :
    decodeCmd 0x06000000 = .error (.reservedOp 6) ∧ decodeCmd 0x00000000 = .error (.reservedOp 0) ∧
    decodeCmd 0x01010000 = .error (.mustBeZero 0x01010000) ∧ decodeCmd 0x02000001 = .error (.mustBeZero 0x02000001) ∧
    decodeCmd 0x05210000 = .error (.payloadTooLong 33) := by decide

/-- spec/30_encoding.md R80: the five patterns, earliest bit period first. -/
theorem test_decode_symbols :
    decodeSym (List.replicate 27 false) = .ok .symSelect ∧ decodeSym [true, true, true] = .ok .symStart ∧
    decodeSym [false, true] = .ok .symBit0 ∧ decodeSym [false, true, true] = .ok .symBit1 ∧
    decodeSym [false, true, true, true] = .ok .symStop ∧ decodeSym [true, false] = .error (.noSymbol [true, false]) := by
  decide

/-- spec/30_encoding.md R88, R91: 0x02 is a read request to 1, 0x03 a data frame for 1. -/
theorem test_decode_headers :
    decodeHdr 0b00000010 = .frameRdreq 1 ∧ decodeHdr 0b00000011 = .frameData 1 ∧ decodeHdr 0xFF = .frameData 0x7F := by
  decide

/-- spec/30_encoding.md R107: the rows of the opcode table as numbers. -/
theorem test_table_words :
    decodeTableWord 32 0x03000000 = some .cmdClose ∧ decodeTableWord 27 0 = some .symSelect ∧
    decodeTableWord 2 1 = some .symBit0 ∧ decodeTableWord 4 7 = some .symStop ∧
    decodeTableWord 8 0x05 = some (.frameData 2) ∧ decodeTableWord 32 0x0A000000 = none := by decide

/-- spec/30_encoding.md R96 to R100. -/
theorem test_encode_commands :
    encode .cmdInit = .cmd 0x01000000 ∧ encode (.cmdOpen 0) = .cmd 0x02000000 ∧ encode (.cmdRead 200) = .cmd 0x04C80000 ∧
    encode (.cmdWrite 1 1 5) = .cmd 0x05050300 ∧ encode (.frameRdreq 1) = .hdr 0x02 := by decide

/-! ## Status, checksum, bands, durations -/

/-- P1: `Ok(5)` is 0x00050000; P4: Timeout is 0x06000000. -/
theorem test_status_words :
    statusWord .ok 5 = 0x00050000 ∧ statusWord .timeout 0 = 0x06000000 ∧ statusCode 0x05000000 = 0x05 ∧
    statusCount 0x00200000 = 32 := by decide

/-- V1, V2. -/
theorem test_checksums :
    checksum [0x03, 0x02, 0x20, 0x00, 0x00, 0x64] = 0x89 ∧ checksum [0x03, 0x32, 0x33] = 0x68 ∧ checksum [] = 0 := by
  decide

/-- V32, V33, V35, V36, and V38 to V41 at `bp = 10`. -/
theorem test_bands :
    bandOf NodeConfig.reference 39 = .zero ∧ bandOf NodeConfig.reference 40 = .one ∧
    bandOf NodeConfig.reference 79 = .one ∧ bandOf NodeConfig.reference 80 = .stop ∧
    bandOf { NodeConfig.reference with bitPeriod := 10 } 12 = .zero ∧
    bandOf { NodeConfig.reference with bitPeriod := 10 } 24 = .one := by decide

/-- spec/30_encoding.md R86: the example frame lasts 5148 ticks with its preamble. -/
theorem test_frame_duration :
    waveTicks NodeConfig.reference
      (preambleSymbols ++ frameSymbols (frameBytes 0x03 [0x02, 0x20, 0x00, 0x00, 0x64])) = 5148 := by decide

/-! ## The line adapter -/

/-- V10, V11, V12. -/
theorem test_wait_until :
    waitUntil (reading .seekLow 100 [⟨100, 33⟩]) .high 100000 = .found 133 ∧
    waitUntil (reading .seekLow 500 []) .low 80 = .expired 580 ∧
    waitUntil (reading .seekLow 7 [⟨7, 1⟩]) .low 1 = .found 7 := by decide

/-- V14: the line is low 10 to 29 and high at 30 when two nodes drive it low 10 to 19 and 15 to 29. -/
theorem test_wired_and :
    (List.range 32).filter (fun t => lineAt (reading .seekLow 0 [⟨10, 10⟩, ⟨15, 15⟩]) t = .low) =
      (List.range 20).map (· + 10) := by decide

/-- spec/42_frame_transport.md R152: a line that is low for one tick in every 100, for ever; `env_high` overrides it
(spec/20_memory.md R51). -/
theorem test_endless_line :
    waitUntil { slave with now := 7001, envLow := ⟨[⟨0, 1, 100⟩], none⟩ } .low 100 = .found 7100 ∧
    waitUntil { slave with now := 7100, envLow := ⟨[⟨0, 1, 100⟩], none⟩ } .high 100 = .found 7101 ∧
    waitUntil { slave with now := 7001, envLow := ⟨[⟨0, 1, 100⟩], none⟩, envHigh := ⟨[⟨50, 200, 100⟩], none⟩ } .low 100 =
      .expired 7101 := by decide

/-- spec/70_reset_and_hazards.md R232: where `env_low` is free from tick 12 on, the line is high before and unknown after. -/
theorem test_free_line :
    waitUntil { slave with now := 10, envLow := ⟨[], some ⟨0, 12⟩⟩ } .low 2 = .expired 12 ∧
    (waitUntil { slave with now := 12, envLow := ⟨[], some ⟨0, 12⟩⟩ } .low 1 = .found 12 ↔
      Config.freeSignal 0 12 = true) := by
  refine ⟨by decide, ?_⟩
  cases h : Config.freeSignal 0 12 <;> simp [waitUntil, leastSuch, lineEdges, Signal.edges, waitHit, lineAt,
    Signal.holds, FreeFrom.covers, h, slave, State.reset, State.resetOf, Signal.quiet]

/-! ## Host commands, one step each -/

/-- P1: INIT of a Slave gives (1,0,0,0), of a Master (1,0,1,0), both with status 0. -/
theorem test_init_ok :
    after flags (exec .cmdInit State.reset) = some (true, false, false, false) ∧
    after flags (exec .cmdInit (State.resetOf masterCfg)) = some (true, false, true, false) ∧
    after (·.status) (exec .cmdInit State.reset) = some 0x00000000 := by decide

/-- P4, tick 1, on an open node: NotReady, all flags 0. -/
theorem test_init_failed :
    after flags (exec .cmdInit { master with setupOk := false }) = some (false, false, false, false) ∧
    after (·.status) (exec .cmdInit { master with setupOk := false }) = some 0x02000000 := by decide

/-- V4 and P4, ticks 5 to 7: AlreadyOpen comes before UnsupportedMode. -/
theorem test_open_again : after (·.status) (exec (.cmdOpen 7) slave) = some 0x03000000 := by decide

/-- P4, ticks 4 and 5. -/
theorem test_open_modes :
    after (fun t => (t.status, t.busy)) (exec (.cmdOpen 5) { slave with busy := false }) = some (0x04000000, false) ∧
    after (fun t => (t.status, t.busy)) (exec (.cmdOpen 0) { slave with busy := false }) = some (0x00000000, true) := by
  decide

/-- P1, tick 6159: CLOSE of a Master leaves its turn. -/
theorem test_close : after flags (exec .cmdClose master) = some (true, false, true, false) := by decide

/-- spec/43_driver_commands.md R166: the preamble is given up and the limit clamped. -/
theorem test_read_starts :
    after (fun t => (t.phase, t.preambleSent)) (exec (.cmdRead 200) master) =
      some (.receiving .seekLow 32, false) := by decide

/-- P4, tick 2. -/
theorem test_read_uninitialized : after (·.status) (exec (.cmdRead 4) State.reset) = some 0x01000000 := by decide

/-- V5. -/
theorem test_write_without_turn :
    after (fun t => (t.status, t.out, t.lows)) (exec (.cmdWrite 0 0 1) slave) = some (0x05000000, .released, []) := by
  decide

/-- V2: the Slave's response is `03 32 33 68`, the turn is taken at once, and the operands `addr` and `dir` are ignored. -/
theorem test_write_response :
    after (fun t => (t.fb, t.writeEnabled))
      (exec (.cmdWrite 0x55 0 2) { slave with writeEnabled := true, txbuf := (slave.txbuf.set 0 0x32).set 1 0x33 }) =
      some ([0x03, 0x32, 0x33, 0x68], false) := by decide

/-! ## Symbols, one step each -/

/-- spec/42_frame_transport.md R136: low 0 to 890, then released up to tick 990. -/
theorem test_preamble_symbols :
    after (fun t => (t.now, t.lows, t.out)) (exec .symSelect master) = some (891, [⟨0, 891⟩], .driveLow) ∧
    after (fun t => (t.now, t.lows, t.out)) (exec .symStart { master with now := 891, out := .driveLow }) =
      some (990, [], .released) := by decide

/-- V20, V21. -/
theorem test_bit_symbols :
    after (fun t => (t.now, t.lows, t.out)) (exec .symBit0 master) = some (66, [⟨0, 33⟩], .released) ∧
    after (fun t => (t.now, t.lows, t.out)) (exec .symBit1 master) = some (99, [⟨0, 33⟩], .released) := by decide

/-- spec/42_frame_transport.md R137. -/
theorem test_stop_symbol :
    after (fun t => (t.now, t.lows, t.out)) (exec .symStop master) = some (132, [⟨0, 33⟩], .released) := by decide

/-- V26: 0x80 is sent bit 7 first. -/
theorem test_byte_symbols :
    byteSymbols 0x80 = [.symBit1, .symBit0, .symBit0, .symBit0, .symBit0, .symBit0, .symBit0, .symBit0] := by decide

/-! ## Frames, one step each -/

/-- V2: the read request `02 02` grants the turn and delivers nothing. -/
theorem test_frame_rdreq :
    after (fun t => (t.status, t.writeEnabled, t.phase)) (exec (.frameRdreq 1) (judging [0x02, 0x02])) =
      some (0x00000000, true, .ready) := by decide

/-- spec/60_exceptions.md R192: a wrong address and a wrong checksum is a NotAddressedToMe discard. -/
theorem test_frame_rdreq_discard :
    after (fun t => (t.discards, t.phase)) (exec (.frameRdreq 2) (judging [0x04, 0x05])) =
      some ([(.notAddressedToMe, 0)], .receiving .seekLow 32) := by decide

/-- V1: `03 02 20 00 00 64 89` is `Ok(5)` with its payload in order, and no turn. -/
theorem test_frame_data :
    after (fun t => (t.status, t.writeEnabled, [t.rxbuf[0], t.rxbuf[1], t.rxbuf[4]]))
      (exec (.frameData 1) (judging [0x03, 0x02, 0x20, 0x00, 0x00, 0x64, 0x89])) =
      some (0x00050000, false, [0x02, 0x20, 0x64]) := by decide

/-- spec/42_frame_transport.md R149. -/
theorem test_frame_data_discard :
    after (fun t => (t.discards, t.fb)) (exec (.frameData 1) (judging [0x03, 0x01, 0x05])) =
      some ([(.checksumMismatch, 0)], []) := by decide

/-! ## Steps of Receive -/

/-- V83, V84: a low of 713 ticks is a select condition, one of 712 is noise. -/
theorem test_select_minimum :
    after (·.phase) (step (reading (.seekRise 1000) 1000 [⟨1000, 713⟩])) = some (.receiving (.seekFall 1713) 32) ∧
    after (fun t => (t.phase, t.discards)) (step (reading (.seekRise 1000) 1000 [⟨1000, 712⟩])) =
      some (.receiving .seekLow 32, [(.noise, 1712)]) := by decide

/-- V85, V86: a high of 80 ticks is a start condition, one of 79 is noise. -/
theorem test_start_minimum :
    after (·.phase) (step (reading (.seekFall 1000) 1000 [⟨1080, 33⟩])) = some (.receiving (.bitRise 7 0) 32) ∧
    after (·.discards) (step (reading (.seekFall 1000) 1000 [⟨1079, 33⟩])) = some [(.noise, 1079)] := by decide

/-- V33, V36: at `t_rise = 1033`, a high of 40 ticks is One, and 80 ticks of high are a Stop. -/
theorem test_decode_bit :
    after (fun t => (t.now, t.phase)) (step (reading (.bitFall 7 0 1033) 1033 [⟨1073, 33⟩])) =
      some (1073, .receiving (.bitRise 6 1) 32) ∧
    after (fun t => (t.now, t.phase)) (step (reading (.bitFall 7 0 1033) 1033 [⟨1132, 33⟩])) =
      some (1113, .receiving .judge 32) := by decide

/-- V3: an idle line gives `Timeout` at tick 100000. -/
theorem test_read_timeout :
    after (fun t => (t.status, t.now, t.phase)) (step (reading .seekLow 0 [])) = some (0x06000000, 100000, .ready) := by
  decide

/-! ## The sequencer and reset -/

/-- P2's WRITE after the Master's OPEN: by spec/70_reset_and_hazards.md R230 it starts strictly later than the tick 1990 in
which OPEN ended (notes/assumptions/6.md). -/
theorem test_write_after_open :
    after (fun t => (t.now, t.endTick)) (step { master with now := 1891, out := .driveLow, phase := .opening .start }) =
      some (1990, some 1990) ∧
    after (fun t => (t.now, t.phase, t.fb))
      (step { master with now := 1990, endTick := some 1990, inputs := [.issue 0x05000200] }) =
      some (1991, .transmitting (.bit 0 7), [0x02, 0x02]) := by decide

/-- P4: the command after one that ended at tick 3 starts at tick 4. -/
theorem test_next_command_later :
    after (·.now) (step { slave with busy := false, now := 3, endTick := some 3, inputs := [.issue 0x02050000] }) =
      some 4 := by decide

/-- spec/70_reset_and_hazards.md R211: a reset at tick 10 cuts the `SELECT` of an OPEN short. -/
theorem test_reset_cuts_transmission :
    after (fun t => (t.lows, t.now, t.phase)) (step { master with phase := .opening .select, resets := [10] }) =
      some ([⟨0, 10⟩], 10, .ready) := by decide

/-- The first step after reset runs the word placed for it: one of each format. -/
theorem test_fetch_word :
    after (·.initialized) (step (State.reset.withFetchWord 32 0x01000000)) = some true ∧
    after (·.now) (step (State.reset.withFetchWord 27 0)) = some 891 ∧
    after (·.now) (step (State.reset.withFetchWord 2 1)) = some 66 ∧
    after (·.writeEnabled) (step (State.reset.withFetchWord 8 0x02)) = some true := by decide

/-! ## Witnesses of the obligations' hypotheses -/

/-- A line known to have a level tick by tick over a window. -/
theorem lineIs_of {s : State} {v : Level} {a b : Nat} (h : ∀ t, t < b → a ≤ t → lineAt s t = v) : lineIs s v a b :=
  fun t h1 h2 => h t h2 h1

/-- On a line that only the other nodes drive, the level shows their lows. -/
theorem lineShows_peers {s : State} {l : List Span} (h : s.peersLow = .ofSpans l) (h1 : s.out = .released)
    (h2 : s.envLow = .quiet) (h3 : s.envHigh = .quiet) (a b : Nat) : lineShows s l a b := by
  intro t _ _
  simp [lineAt, h, h1, h2, h3]

/-- The smallest legal node: one tick a bit period, `T_TIMEOUT` 28. -/
def tiny : NodeConfig := { bitPeriod := 1, role := .slave, ownAddress := 1, tTimeout := 28, selectMinX10 := 216 }

/-- The tiny node in READ 32 at tick 0, on a line with the given lows. -/
def tinyAt (p : RxPos) (lows : List Span) : State :=
  { State.resetOf tiny with initialized := true, phase := .receiving p 32, peersLow := .ofSpans lows }

theorem tiny_plain (p : RxPos) (lows : List Span) : plain (tinyAt p lows) :=
  ⟨by show legalConfig tiny; decide, rfl⟩

theorem witness_InitFollowsPinSetup : State.reset.setupOk = true ∧ ({ slave with setupOk := false }).setupOk = false := by
  decide

theorem witness_UninitializedCommandsFail :
    State.reset.initialized = false ∧ (Instr.cmdWrite 1 1 32).wf = true ∧
    exec .cmdInit State.reset = .next (returnOk 0 (flagsInitOk State.reset)) := ⟨rfl, rfl, rfl⟩

theorem witness_OpenTakesTheSession :
    State.reset.initialized = false ∧ (slave.initialized = true ∧ slave.busy = true) ∧
    (∃ s : State, s.initialized = true ∧ s.busy = false ∧ (5 : Byte) ≠ 0 ∧ s.cfg.role = .slave) ∧
    (∃ s : State, s.initialized = true ∧ s.busy = false ∧ s.cfg.role = .master ∧ plain s) :=
  ⟨rfl, ⟨rfl, rfl⟩, ⟨{ slave with busy := false }, by decide⟩, ⟨{ master with busy := false }, by decide, by decide, by decide,
    by decide, rfl⟩⟩

theorem witness_CloseEndsTheSession :
    State.reset.initialized = false ∧ (master.initialized = true ∧ master.cfg.role = .master) ∧
    (slave.initialized = true ∧ slave.cfg.role = .slave) := by decide

theorem witness_ReadOfAnIdleLineTimesOut :
    slave.initialized = true ∧ plain slave ∧ lineIs slave .high slave.now (slave.now + slave.cfg.tTimeout) :=
  ⟨rfl, ⟨by decide, rfl⟩, fun _ _ _ => rfl⟩

/-- The read request `02 02` of V2 on the line of a tiny node: `SELECT` from tick 0, the first byte from tick 30. It fills
the limit of `READ 0` and leaves room in `READ 1`. -/
theorem witness_ReadReceivesAFrame :
    ∃ s : State, plain s ∧ s.initialized = true ∧ 0 < s.now + s.cfg.tTimeout ∧ s.now < 0 + 27 ∧
      0 + 27 < max s.now 0 + s.cfg.tTimeout ∧
      s.cfg.selectMinX10 * s.cfg.bitPeriod ≤ 10 * (0 + 27 - max s.now 0) ∧
      0 + 27 < 30 ∧ 24 * s.cfg.bitPeriod ≤ 10 * (30 - (0 + 27)) ∧ 30 < 0 + 27 + s.cfg.tTimeout ∧
      ([] : List Byte).length = min (0 : Byte).toNat 32 ∧ ([] : List Byte).length < min (1 : Byte).toNat 32 ∧
      (s.cfg.role = .slave → headerAddr 0x02 = s.cfg.ownAddress) ∧
      frameOnLine s 0 27 30 (frameBytes 0x02 []) :=
  ⟨tinyAt .seekLow (⟨0, 27⟩ :: waveLows tiny 30 (frameSymbols (frameBytes 0x02 []))), tiny_plain _ _, by decide, by decide,
    by decide, by decide, by decide, by decide, by decide, by decide, by decide, by decide, by decide,
    lineShows_peers (l := ⟨0, 27⟩ :: waveLows tiny 30 (frameSymbols (frameBytes 0x02 []))) rfl rfl rfl rfl _ _⟩

theorem witness_WriteNeedsTheTurn :
    (32 : Byte).toNat ≤ 32 ∧ slave.initialized = true ∧ slave.cfg.role = .slave ∧ slave.writeEnabled = false ∧
    32 < (33 : Byte).toNat := by decide

theorem witness_WriteSendsOneFrame :
    (∃ s : State, plain s ∧ s.initialized = true ∧ (32 : Byte).toNat ≤ 32 ∧ s.cfg.role = .slave ∧ s.writeEnabled = true) ∧
    (plain master ∧ master.initialized = true ∧ (0 : Byte).toNat ≤ 32 ∧ master.cfg.role = .master ∧
      master.preambleSent = true) :=
  ⟨⟨{ slave with writeEnabled := true }, ⟨by decide, rfl⟩, by decide⟩, ⟨by decide, rfl⟩, by decide⟩

theorem witness_AcceptedFramesAreDelivered :
    2 ≤ (judging [0x02, 0x02]).fb.length ∧ ((judging [0x02, 0x02]).cfg.role = .slave → 1 = (judging [0x02, 0x02]).cfg.ownAddress) ∧
    (judging [0x02, 0x02]).fb.getLast? = some (checksum (judging [0x02, 0x02]).fb.dropLast) := by decide

theorem witness_RejectedFramesAreDiscarded :
    (judging [0x02]).phase = .receiving .judge 32 ∧ (judging [0x02]).fb.length < 2 ∧
    (2 ≤ (judging [0x04, 0x04]).fb.length ∧ (judging [0x04, 0x04]).cfg.role = .slave ∧
      (2 : Addr) ≠ (judging [0x04, 0x04]).cfg.ownAddress) ∧
    (2 ≤ (judging [0x02, 0x03]).fb.length ∧ 1 = (judging [0x02, 0x03]).cfg.ownAddress ∧
      (judging [0x02, 0x03]).fb.getLast? ≠ some (checksum (judging [0x02, 0x03]).fb.dropLast)) := by decide

theorem witness_RejectedFramesAreDiscarded_empty :
    plain (judging []) ∧ (judging []).phase = .receiving .judge 32 ∧ (judging []).fb = [] :=
  ⟨⟨by decide, rfl⟩, rfl, rfl⟩

/-- A timeout, a delivery and a search that goes on. -/
theorem witness_ReceiveEndsOkOrTimeout :
    (plain (reading .seekLow 0 []) ∧ after (·.status) (step (reading .seekLow 0 [])) = some 0x06000000) ∧
    (plain (judging [0x02, 0x02]) ∧ after (·.phase) (step (judging [0x02, 0x02])) = some .ready) ∧
    (plain (judging []) ∧ after (·.phase) (step (judging [])) = some (.receiving .seekLow 32)) :=
  ⟨⟨⟨by decide, rfl⟩, by decide⟩, ⟨⟨by decide, rfl⟩, by decide⟩, ⟨⟨by decide, rfl⟩, by decide⟩⟩

theorem witness_OneWrongByteIsNeverDelivered :
    (judging [0x02, 0x03]).phase = .receiving .judge 32 ∧ 2 ≤ ([0x02, 0x02] : List Byte).length ∧
    ([0x02, 0x02] : List Byte).getLast? = some (checksum ([0x02, 0x02] : List Byte).dropLast) ∧
    1 < ([0x02, 0x02] : List Byte).length ∧ ([0x02, 0x02] : List Byte)[1]? ≠ some 0x03 ∧
    (judging [0x02, 0x03]).fb = ([0x02, 0x02] : List Byte).set 1 0x03 := by decide

/-- A line stuck low, and after a sync pulse of one tick highs of 1, 2 and 3 ticks (V43: Zero, One, Stop). -/
theorem witness_DecodeBitMeasuresTheHighPhase :
    (∃ s : State, plain s ∧ s.phase = .receiving (.bitRise 7 0) 32 ∧ lineIs s .low s.now (s.now + s.cfg.tTimeout)) ∧
    (∀ d, d = 1 ∨ d = 2 ∨ d = 3 → ∃ s : State, plain s ∧ s.phase = .receiving (.bitRise 7 0) 32 ∧ s.now ≤ 1 ∧
      1 < s.now + s.cfg.tTimeout ∧ lineIs s .low s.now 1 ∧ 1 ≤ d ∧ lineIs s .high 1 (1 + d) ∧ lineAt s (1 + d) = .low ∧
      (d = 1 → 10 * d ≤ 12 * s.cfg.bitPeriod) ∧
      (d = 2 → 12 * s.cfg.bitPeriod < 10 * d ∧ 10 * d ≤ 24 * s.cfg.bitPeriod) ∧
      (d = 3 → 24 * s.cfg.bitPeriod < 10 * d)) := by
  refine ⟨⟨tinyAt (.bitRise 7 0) [⟨0, 28⟩], tiny_plain _ _, rfl, lineIs_of (by decide)⟩, ?_⟩
  rintro d (rfl | rfl | rfl)
  · exact ⟨tinyAt (.bitRise 7 0) [⟨0, 1⟩, ⟨2, 1⟩], tiny_plain _ _, rfl, by decide, by decide, lineIs_of (by decide), by decide,
      lineIs_of (by decide), by decide⟩
  · exact ⟨tinyAt (.bitRise 7 0) [⟨0, 1⟩, ⟨3, 1⟩], tiny_plain _ _, rfl, by decide, by decide, lineIs_of (by decide), by decide,
      lineIs_of (by decide), by decide⟩
  · exact ⟨tinyAt (.bitRise 7 0) [⟨0, 1⟩, ⟨4, 1⟩], tiny_plain _ _, rfl, by decide, by decide, lineIs_of (by decide), by decide,
      lineIs_of (by decide), by decide⟩

/-- At `bp = 10`: highs of 8 and 12 ticks for a Zero, of 16 and 24 for a One. -/
theorem witness_TwentyPercentIsTolerated :
    ∀ d v, (d, v) = (8, false) ∨ (d, v) = (12, false) ∨ (d, v) = (16, true) ∨ (d, v) = (24, true) →
      ∃ s : State, plain s ∧ s.phase = .receiving (.bitRise 7 0) 32 ∧ s.now ≤ 10 ∧ 10 < s.now + s.cfg.tTimeout ∧
        lineIs s .low s.now 10 ∧ lineIs s .high 10 (10 + d) ∧ lineAt s (10 + d) = .low ∧
        (v = false → 8 * s.cfg.bitPeriod ≤ 10 * d ∧ 10 * d ≤ 12 * s.cfg.bitPeriod) ∧
        (v = true → 16 * s.cfg.bitPeriod ≤ 10 * d ∧ 10 * d ≤ 24 * s.cfg.bitPeriod) := by
  intro d v h
  refine ⟨{ tinyAt (.bitRise 7 0) [⟨0, 10⟩, ⟨10 + d, 10⟩] with cfg := { tiny with bitPeriod := 10, tTimeout := 271 } },
    ⟨by show legalConfig { tiny with bitPeriod := 10, tTimeout := 271 }; decide, rfl⟩, rfl, by simp [tinyAt, State.resetOf], by simp [tinyAt, State.resetOf], ?_⟩
  rcases h with h | h | h | h <;> cases h <;>
    exact ⟨lineIs_of (by decide), lineIs_of (by decide), by decide, by decide, by decide⟩

/-- The waveform of 0x03 (V23) and a low pulse after it. -/
theorem witness_DecodeByteInvertsEncodeByte :
    ∃ s : State, plain s ∧ s.phase = .receiving (.bitRise 7 0) 32 ∧
      lineShows s (waveLows s.cfg s.now (byteSymbols 0x03)) s.now (s.now + waveTicks s.cfg (byteSymbols 0x03)) ∧
      lineAt s (s.now + waveTicks s.cfg (byteSymbols 0x03)) = .low := by
  refine ⟨tinyAt (.bitRise 7 0) (waveLows tiny 0 (byteSymbols 0x03) ++ [⟨18, 1⟩]), tiny_plain _ _, rfl, ?_, by decide⟩
  have h : ∀ t, t < 18 → (lineAt (tinyAt (.bitRise 7 0) (waveLows tiny 0 (byteSymbols 0x03) ++ [⟨18, 1⟩])) t = .low ↔
      coversAny (waveLows tiny 0 (byteSymbols 0x03)) t = true) := by decide
  exact fun t _ h2 => h t h2

/-- An idle line; a line stuck low; lows of 21 and 22 ticks (noise, select); after the select a line stuck high, and highs
of 2 and 3 ticks (noise, start). -/
theorem witness_StartSearch :
    (∃ s : State, plain s ∧ s.phase = .receiving .seekLow 32 ∧ lineIs s .high s.now (s.now + s.cfg.tTimeout)) ∧
    (∃ s : State, plain s ∧ s.phase = .receiving .seekLow 32 ∧ lineIs s .high s.now 0 ∧
      lineIs s .low 0 (0 + s.cfg.tTimeout)) ∧
    (∃ s : State, plain s ∧ s.phase = .receiving .seekLow 32 ∧ lineIs s .low 0 21 ∧ 21 < 0 + s.cfg.tTimeout ∧
      10 * (21 - 0) < s.cfg.selectMinX10 * s.cfg.bitPeriod ∧ lineAt s 21 = .high) ∧
    (∃ s : State, plain s ∧ s.phase = .receiving .seekLow 32 ∧ lineIs s .low 0 22 ∧ 22 < 0 + s.cfg.tTimeout ∧
      s.cfg.selectMinX10 * s.cfg.bitPeriod ≤ 10 * (22 - 0) ∧ lineIs s .high 22 (22 + s.cfg.tTimeout)) ∧
    (∃ s : State, plain s ∧ s.phase = .receiving .seekLow 32 ∧ lineIs s .low 0 22 ∧ lineIs s .high 22 24 ∧
      lineAt s 24 = .low ∧ 24 < 22 + s.cfg.tTimeout ∧ 10 * (24 - 22) < 24 * s.cfg.bitPeriod) ∧
    (∃ s : State, plain s ∧ s.phase = .receiving .seekLow 32 ∧ lineIs s .low 0 22 ∧ lineIs s .high 22 25 ∧
      lineAt s 25 = .low ∧ 25 < 22 + s.cfg.tTimeout ∧ 24 * s.cfg.bitPeriod ≤ 10 * (25 - 22)) :=
  ⟨⟨tinyAt .seekLow [], tiny_plain _ _, rfl, fun _ _ _ => rfl⟩,
   ⟨tinyAt .seekLow [⟨0, 28⟩], tiny_plain _ _, rfl, lineIs_of (by decide), lineIs_of (by decide)⟩,
   ⟨tinyAt .seekLow [⟨0, 21⟩], tiny_plain _ _, rfl, lineIs_of (by decide), by decide, by decide, by decide⟩,
   ⟨tinyAt .seekLow [⟨0, 22⟩], tiny_plain _ _, rfl, lineIs_of (by decide), by decide, by decide, lineIs_of (by decide)⟩,
   ⟨tinyAt .seekLow [⟨0, 22⟩, ⟨24, 1⟩], tiny_plain _ _, rfl, lineIs_of (by decide), lineIs_of (by decide), by decide, by decide,
     by decide⟩,
   ⟨tinyAt .seekLow [⟨0, 22⟩, ⟨25, 1⟩], tiny_plain _ _, rfl, lineIs_of (by decide), lineIs_of (by decide), by decide, by decide,
     by decide⟩⟩

theorem witness_ReadNeedNotEnd : legalConfig NodeConfig.reference ∧ legalConfig tiny := by decide

theorem witness_DecodeOfEncode : (Instr.cmdWrite 0x7F 1 32).wf = true := by decide

theorem witness_EncodeOfDecode : decode (.cmd 0x0520FF00) = .ok (.cmdWrite 0x7F 1 32) := by decide

/-- A command, a reserved word, a symbol of OPEN and of WRITE, a frame to judge. -/
theorem witness_StepRunsTheDecodedInstruction :
    (∃ s : State, plain s ∧ s.phase = .ready ∧ s.inputs = [.issue 0x01000000] ∧ decodeCmd 0x01000000 = .ok .cmdInit) ∧
    (∃ s : State, plain s ∧ s.phase = .ready ∧ s.inputs = [.issue 0] ∧ decodeCmd 0 = .error (.reservedOp 0)) ∧
    (∃ s : State, plain s ∧ s.phase = .opening .select) ∧ (∃ s : State, plain s ∧ s.phase = .transmitting .stop) ∧
    (∃ s : State, plain s ∧ s.phase = .receiving .judge 32 ∧ s.fb = [0x02, 0x02]) :=
  ⟨⟨{ slave with inputs := [.issue 0x01000000] }, ⟨by decide, rfl⟩, rfl, rfl, by decide⟩,
   ⟨{ slave with inputs := [.issue 0] }, ⟨by decide, rfl⟩, rfl, rfl, by decide⟩,
   ⟨{ master with phase := .opening .select }, ⟨by decide, rfl⟩, rfl⟩,
   ⟨{ master with phase := .transmitting .stop }, ⟨by decide, rfl⟩, rfl⟩,
   ⟨judging [0x02, 0x02], ⟨by decide, rfl⟩, rfl, rfl⟩⟩

theorem witness_InputsBetweenCommands :
    ∀ l, l = [] ∨ l = [.wait 5] ∨ l = [.writeTx 31 0xAA] ∨ l = [.pinSetup false] →
      ∃ s : State, plain s ∧ s.phase = .ready ∧ s.inputs = l :=
  fun l _ => ⟨{ slave with inputs := l }, ⟨by show legalConfig NodeConfig.reference; decide, rfl⟩, rfl, rfl⟩

theorem witness_NothingIsFatal :
    (Instr.cmdWrite 1 1 32).wf = true ∧ legalConfig State.reset.cfg ∧
    ∀ w rest, State.reset.inputs = .issue w :: rest → ∃ i, decodeCmd w = .ok i :=
  ⟨by decide, by decide, fun _ _ h => by cases h⟩

/-- The node right after reset meets the invariant and makes a step; so does a Slave in READ. -/
theorem witness_StepKeepsTheInvariant :
    NodeInv State.reset ∧ step State.reset = .next { State.reset with now := 1 } ∧
    NodeInv (reading .seekLow 5 []) := by
  refine ⟨?_, rfl, ?_⟩ <;> constructor <;> simp [State.reset, State.resetOf, reading, slave, phaseOk, outputOf, maxPayload,
    NodeConfig.reference]

/-- A reset that is due; one in the middle of a wait; one that the step does not reach. -/
theorem witness_HardwareResetEndsEverything :
    (legalConfig master.cfg ∧ ({ master with resets := [0] }).resets = [0] ∧ 0 ≤ master.now ∧
      ∀ sp ∈ master.lows, sp.start + sp.len ≤ master.now) ∧
    (∃ u, stepCore { slave with resets := [3], inputs := [.wait 5] } = .next u ∧ 0 < 3 ∧ 3 ≤ u.now) ∧
    (∃ u, stepCore { slave with resets := [9], inputs := [.wait 5] } = .next u ∧ u.now < 9 ∧ 0 ≤ u.now) :=
  ⟨⟨by decide, rfl, by decide, by decide⟩, ⟨_, rfl, by decide, by decide⟩, ⟨_, rfl, by decide, by decide⟩⟩

theorem witness_ConfigurationIsImmutable : step State.reset = .next { State.reset with now := 1 } := rfl

/-- A turn granted; a turn taken by a WRITE, and lost in a hardware reset. -/
theorem witness_TheTurnComesFromAReadRequest :
    ((judging [0x02, 0x02]).cfg.role = .slave ∧
      (judging [0x02, 0x02]).writeEnabled = false ∧ after (·.writeEnabled) (step (judging [0x02, 0x02])) = some true) ∧
    (∃ s : State, s.cfg.role = .slave ∧ s.writeEnabled = true ∧ s.initialized = true ∧
      (Instr.cmdWrite 1 1 0).wf = true ∧ after (·.writeEnabled) (step s) = some false) ∧
    (∃ s : State, s.cfg.role = .slave ∧ s.writeEnabled = true ∧ after (·.writeEnabled) (step s) = some false ∧
      s.resets = [0]) :=
  ⟨by decide, ⟨{ slave with writeEnabled := true, inputs := [.issue 0x05000000] }, by decide⟩,
   ⟨{ slave with writeEnabled := true, resets := [0] }, by decide⟩⟩

theorem witness_LifecycleTransitions :
    after (·.initialized) (exec .cmdInit State.reset) = some true ∧
    after (·.busy) (exec (.cmdOpen 0) { slave with busy := false }) = some true ∧
    after (·.busy) (exec .cmdClose slave) = some false := by decide

theorem witness_MasterIgnoresTheTurn : master.cfg.role = .master ∧ Instr.cmdWrite 1 1 1 ≠ .cmdInit := by decide

theorem witness_IgnoredOperands : slave.cfg.role = .slave ∧ 32 ≤ (33 : Byte).toNat := by decide

theorem witness_OnlyReadObservesTheLine : ∀ p m, slave.phase ≠ .receiving p m := by intro p m h; cases h

theorem witness_ThePastIsFixed :
    (∀ sp ∈ State.reset.lows, sp.start + sp.len ≤ State.reset.now) ∧
    step State.reset = .next { State.reset with now := 1 } := ⟨by decide, rfl⟩

/-- A symbol, and a step of a node that is `Ready` and of one in READ. -/
theorem witness_OnlySymbolsDriveTheLine :
    (after (·.now) (exec .symStart master) = some 99 ∧ master.now ≠ 99) ∧
    after (·.out) (exec .symSelect master) = some .driveLow ∧
    (plain slave ∧ slave.phase = .ready ∧ after (·.lows) (step slave) = some slave.lows) ∧
    (plain (reading .seekLow 0 []) ∧ after (·.out) (step (reading .seekLow 0 [])) = some .released) :=
  ⟨by decide, by decide, ⟨⟨by decide, rfl⟩, by decide⟩, ⟨⟨by decide, rfl⟩, by decide⟩⟩

/-- A Slave in READ waits through ticks 0 to 28; a symbol pulls low. -/
theorem witness_AllNodesSeeOneLine :
    (∃ u, NodeInv (tinyAt .seekLow []) ∧ plain (tinyAt .seekLow []) ∧ step (tinyAt .seekLow []) = .next u ∧
      0 ≤ 27 ∧ 27 < u.now) ∧
    (∃ u, exec .symBit0 slave = .next u ∧ 0 ≤ 32 ∧ 32 < 0 + slave.cfg.bitPeriod ∧ slave.envHigh.holds 32 = false) :=
  ⟨⟨_, by constructor <;> simp [tinyAt, State.resetOf, phaseOk, outputOf, maxPayload, tiny], tiny_plain _ _, rfl, by decide,
    by decide⟩, ⟨_, rfl, by decide, by decide, by decide⟩⟩

/-- Two nodes: one drove the line low during ticks 0 to 2, the other was given those lows and waited for them to end. -/
theorem witness_AllNodesSeeOneLine_bus :
    ∃ (b : Bus) (s u : State), b.AgreesBefore 3 ∧ 2 < 3 ∧ u ∈ b.nodes ∧ b.nodes.length = 2 ∧ levelSeen u 2 = .low ∧
      NodeInv s ∧ plain s ∧ s.phase = .receiving (.seekRise 0) 32 ∧ step s = .next u ∧ s.now ≤ 2 ∧ 2 < u.now := by
  refine ⟨⟨[{ slave with lows := [⟨0, 3⟩] }, rxSeekRise 0 32 (tinyAt (.seekRise 0) [⟨0, 3⟩])], .quiet, .quiet⟩,
    tinyAt (.seekRise 0) [⟨0, 3⟩], rxSeekRise 0 32 (tinyAt (.seekRise 0) [⟨0, 3⟩]), ?_, by decide, by simp, rfl, by decide,
    ?_, tiny_plain _ _, rfl, rfl, by decide, by decide⟩
  · intro t ht pre s post h
    rcases pre with - | ⟨a, - | ⟨c, pre⟩⟩
    · cases h
      exact ⟨rfl, rfl, rfl⟩
    · cases h
      exact ⟨rfl, rfl, (Signal.holds_ofSpans _ t).trans (by simp [drove])⟩
    · simp at h
  · constructor <;> simp [tinyAt, State.resetOf, phaseOk, outputOf, maxPayload, tiny]

end Sys2Proof.Tests
end

