-- ==== Sys2Proof/Proofs/Configuration.lean ====
section
/-! SUPPORT and PROOF. The configuration is read-only (spec/10_state.md R20): no shared operation, no instruction, no move of
the sequencer and no hardware reset writes it. -/

namespace Sys2Proof.Machine

/-! ## Shared operations -/

@[simp] theorem flagsInitOk_cfg (s : State) : (flagsInitOk s).cfg = s.cfg := rfl

@[simp] theorem flagsInitFailed_cfg (s : State) : (flagsInitFailed s).cfg = s.cfg := rfl

@[simp] theorem accept_cfg (w : Word) (rest : List Input) (s : State) : (accept w rest s).cfg = s.cfg := rfl

@[simp] theorem resetDuring_cfg (r : Nat) (s t : State) : (resetDuring r s t).cfg = s.cfg := rfl

@[simp] theorem turnGrant_cfg (s : State) : (turnGrant s).cfg = s.cfg := by
  unfold turnGrant
  split <;> rfl

@[simp] theorem beginTransmit_cfg (h : Byte) (p : List Byte) (s : State) : (beginTransmit h p s).cfg = s.cfg := by
  rcases beginTransmit_cases h p s with ⟨-, -, e⟩ | ⟨-, e⟩ <;> simp [e]

@[simp] theorem afterSymbol_cfg (s : State) : (afterSymbol s).cfg = s.cfg := by
  unfold afterSymbol
  split
  case h_3 => split <;> rfl
  all_goals rfl

@[simp] theorem rxByteDone_cfg (b : Byte) (m : Nat) (s : State) : (rxByteDone b m s).cfg = s.cfg := by
  rcases rxByteDone_cases b m s with ⟨-, e⟩ | ⟨-, e⟩ <;> simp [e]

@[simp] theorem rxBitDone_cfg (i : Nat) (acc : Byte) (bit : Bool) (m : Nat) (s : State) :
    (rxBitDone i acc bit m s).cfg = s.cfg := by
  cases i with
  | zero => exact rxByteDone_cfg _ m s
  | succ j => exact rxAt_cfg s _ m

/-- A wait that may end READ keeps the configuration where what follows its level keeps it. -/
theorem waitOrTimeout_cfg (v : Level) {f : State → State} (s : State) (hf : ∀ u, (f u).cfg = u.cfg) :
    (waitOrTimeout v f s).cfg = s.cfg := by
  rcases waitOrTimeout_cases v f s with ⟨a, -, e⟩ | ⟨-, e⟩ <;> simp [e, hf]

/-! ## Instructions -/

/-- No instruction writes the configuration: "no command writes any field" (spec/10_state.md R20). -/
theorem exec_cfg {i : Instr} {s t : State} (h : exec i s = .next t) : t.cfg = s.cfg := by
  cases i with
  | cmdInit => rcases execCmdInit_cases h with ⟨-, rfl⟩ | ⟨-, rfl⟩ <;> simp
  | cmdOpen mode =>
    rcases execCmdOpen_cases h with ⟨-, rfl⟩ | ⟨-, -, rfl⟩ | ⟨-, -, -, rfl⟩ | ⟨-, -, -, -, rfl⟩ | ⟨-, -, -, -, rfl⟩ <;> simp
  | cmdClose => rcases execCmdClose_cases h with ⟨-, rfl⟩ | ⟨-, -, rfl⟩ | ⟨-, -, rfl⟩ <;> simp
  | cmdRead maxLen => rcases execCmdRead_cases h with ⟨-, rfl⟩ | ⟨-, rfl⟩ <;> simp
  | cmdWrite addr dir len =>
    obtain ⟨-, h⟩ := execCmdWrite_cases h
    rcases h with ⟨-, rfl⟩ | ⟨-, -, -, rfl⟩ | ⟨-, -, rfl⟩ | ⟨-, -, -, rfl⟩ <;> simp
  | frameRdreq a => rcases execFrameRdreq_cases h with ⟨r, -, rfl⟩ | ⟨-, rfl⟩ <;> simp
  | frameData a => rcases execFrameData_cases h with ⟨r, -, rfl⟩ | ⟨-, rfl⟩ <;> simp
  | symSelect | symStart | symBit0 | symBit1 | symStop => rw [exec_symbol s rfl] at h; cases h; rfl

/-! ## Steps -/

/-- No move of the sequencer writes the configuration. -/
theorem moves_cfg {s t : State} (h : Moves s t) : t.cfg = s.cfg := by
  cases h with
  | idle | wait | writeTx | pinSetup => rfl
  | command w rest i t _ _ _ he => exact (exec_cfg he).trans (accept_cfg w rest s)
  | opening p u _ he => exact (afterSymbol_cfg u).trans (exec_cfg he)
  | transmitting p u _ he => exact (afterSymbol_cfg u).trans (exec_cfg he)
  | seekLow m => exact waitOrTimeout_cfg .low s fun u => rxAt_cfg u _ m
  | seekRise tLow m => exact waitOrTimeout_cfg .high s fun u => by split <;> simp
  | seekFall tRise m => exact waitOrTimeout_cfg .low s fun u => by split <;> simp
  | bitRise i acc m => exact waitOrTimeout_cfg .high s fun u => rxAt_cfg u _ m
  | bitFall i acc tRise m => rcases rxBitFall_cases i acc tRise m s with ⟨a, -, e⟩ | ⟨-, e⟩ <;> simp [e]
  | noBytes m => exact discardFrame_cfg s .malformed
  | frame m b rest t _ _ he => exact exec_cfg he

/-- Nor does a step, with or without a hardware reset: "no rule of this spec changes one" (spec/10_state.md R20). -/
theorem step_cfg {s t : State} (h : step s = .next t) : t.cfg = s.cfg := by
  rcases step_eq_next_cases h with
    ⟨-, hu⟩ | ⟨r, rest, -, -, rfl⟩ | ⟨r, rest, u, -, -, hu, ⟨-, rfl⟩ | ⟨-, rfl⟩⟩
  · exact moves_cfg (stepCore_moves hu)
  · exact hardReset_cfg s
  · exact resetDuring_cfg r s u
  · exact moves_cfg (stepCore_moves hu)

end Sys2Proof.Machine

namespace Sys2Proof

/-- Settles O36: each way a step can end, a move of the sequencer or a hardware reset before or during one, keeps the
configuration. -/
theorem configurationIsImmutable : Obligations.ConfigurationIsImmutable :=
  fun _ _ h => Machine.step_cfg h

end Sys2Proof
end

