-- ==== Sys2Proof/Proofs/BitSymbols.lean ====
section
/-! PROOF. The two bit symbols (spec/41_bit_codec.md R121, R122): the symbol law of Laws/Waveform.lean, read at the ticks and
the lows of each. -/

namespace Sys2Proof

/-- Settles O10: both bits put their waveform on the line and change nothing else, and the waveform of each is one bit period
low, then released to the end of its two or three. -/
theorem bitSymbols : Obligations.BitSymbols :=
  fun s => ⟨Machine.exec_symbol (i := .symBit0) s rfl, Machine.exec_symbol (i := .symBit1) s rfl⟩

end Sys2Proof
end

