-- ==== Sys2Proof/Proofs/Rejection.lean ====
section
/-! SUPPORT and PROOF. Frames that fail a check of Receive (spec/42_frame_transport.md R146, R148, R149): the reason of each
discard by the first check that fails, and what the discard leaves behind. -/

namespace Sys2Proof.Machine

/-! ## The first check that fails -/

variable {s : State} {a : Addr}

/-- Step 3 comes first: neither address nor checksum is looked at (spec/42_frame_transport.md R146). -/
theorem discardReason_short (h : s.fb.length < 2) : discardReason a s = some .malformed :=
  if_pos h

/-- Step 4 comes before the checksum (spec/42_frame_transport.md R148). -/
theorem discardReason_otherAddress (h : 2 ≤ s.fb.length) (hs : s.cfg.role = .slave) (ha : a ≠ s.cfg.ownAddress) :
    discardReason a s = some .notAddressedToMe := by
  rw [discardReason, if_neg (Nat.not_lt.mpr h), if_pos ⟨hs, ha⟩]

/-- Step 5, on a frame that has passed steps 3 and 4 (spec/42_frame_transport.md R149). -/
theorem discardReason_wrongChecksum (h : 2 ≤ s.fb.length) (ha : s.cfg.role = .slave → a = s.cfg.ownAddress)
    (hc : s.fb.getLast? ≠ some (checksum s.fb.dropLast)) : discardReason a s = some .checksumMismatch := by
  have hsum : checksumHolds s.fb = false := by rwa [← Bool.not_eq_true, checksumHolds_iff]
  rw [discardReason, if_neg (Nat.not_lt.mpr h), if_neg fun ⟨hs, hne⟩ => hne (ha hs), if_pos hsum]

/-! ## The discard -/

/-- With a reason to discard it, a frame of either kind has no other effect than the discard. -/
theorem exec_frame_rejected {i : Instr} {r : Discard} (hi : i = .frameRdreq a ∨ i = .frameData a)
    (hr : discardReason a s = some r) : exec i s = .next (discardFrame r s) := by
  rcases hi with rfl | rfl
  · simp only [exec, execFrameRdreq, hr]
  · simp only [exec, execFrameData, hr]

/-- The step at the end of a byte loop that has decoded no byte. -/
theorem stepCore_noBytes {m : Nat} (hp : s.phase = .receiving .judge m) (hf : s.fb = []) :
    stepCore s = .next (discardFrame .malformed s) := by
  simp only [stepCore, fetch, hp, fetchReceive, rxJudge, hf]

/-- Inside Receive a discard resumes the start search under the same limit (spec/42_frame_transport.md R153). -/
theorem discardFrame_receiving {p : RxPos} {m : Nat} (r : Discard) (hp : s.phase = .receiving p m) :
    discardFrame r s = Claims.searchAgain r m s := by
  simp only [discardFrame, Claims.searchAgain, hp, searchPhase]

end Sys2Proof.Machine

namespace Sys2Proof

open Machine in
/-- Settles O13: each clause names the first check that fails, and every discard inside Receive resumes the search. -/
theorem rejectedFramesAreDiscarded : Obligations.RejectedFramesAreDiscarded := by
  intro s p m a i hp hi
  have rejected (r : Discard) (hr : discardReason a s = some r) : exec i s = .next (Claims.searchAgain r m s) := by
    rw [exec_frame_rejected hi hr, discardFrame_receiving r hp]
  refine ⟨?noBytes, ?short, ?otherAddress, ?wrongChecksum⟩
  case noBytes =>
    rintro ⟨hcfg, hres⟩ rfl hfb
    rw [step_eq_stepCore hcfg hres, stepCore_noBytes hp hfb, discardFrame_receiving .malformed hp]
  case short => exact fun hlen => rejected _ (discardReason_short hlen)
  case otherAddress => exact fun hlen hs ha => rejected _ (discardReason_otherAddress hlen hs ha)
  case wrongChecksum => exact fun hlen ha hc => rejected _ (discardReason_wrongChecksum hlen ha hc)

end Sys2Proof
end

