-- ==== Sys2Proof/Proofs/Turn.lean ====
section
/-! SUPPORT and PROOF. The turn of a Slave (spec/43_driver_commands.md R169): which operations leave it alone, which
instructions change it, and where in a step they run. -/

namespace Sys2Proof.Machine

/-! ## Operations that leave the turn alone, or clear it -/

@[simp] theorem resetDuring_writeEnabled (r : Nat) (s t : State) : (resetDuring r s t).writeEnabled = false := rfl

@[simp] theorem beginTransmit_writeEnabled (h : Byte) (p : List Byte) (s : State) :
    (beginTransmit h p s).writeEnabled = s.writeEnabled := by
  rcases beginTransmit_cases h p s with ⟨-, -, e⟩ | ⟨-, e⟩ <;> simp [e]

@[simp] theorem afterSymbol_writeEnabled (s : State) : (afterSymbol s).writeEnabled = s.writeEnabled := by
  unfold afterSymbol
  split
  case h_3 => split <;> rfl
  all_goals rfl

@[simp] theorem rxByteDone_writeEnabled (b : Byte) (m : Nat) (s : State) :
    (rxByteDone b m s).writeEnabled = s.writeEnabled := by
  rcases rxByteDone_cases b m s with ⟨-, e⟩ | ⟨-, e⟩ <;> simp [e]

@[simp] theorem rxBitDone_writeEnabled (i : Nat) (acc : Byte) (bit : Bool) (m : Nat) (s : State) :
    (rxBitDone i acc bit m s).writeEnabled = s.writeEnabled := by
  cases i with
  | zero => exact rxByteDone_writeEnabled _ m s
  | succ j => exact rxAt_writeEnabled s _ m

@[simp] theorem rxBitFall_writeEnabled (i : Nat) (acc : Byte) (tRise m : Nat) (s : State) :
    (rxBitFall i acc tRise m s).writeEnabled = s.writeEnabled := by
  rcases rxBitFall_cases i acc tRise m s with ⟨a, -, e⟩ | ⟨-, e⟩ <;> simp [e]

/-- A wait that may end READ keeps the turn where what follows its level keeps it. -/
theorem waitOrTimeout_writeEnabled (v : Level) {f : State → State} (s : State)
    (hf : ∀ u, (f u).writeEnabled = u.writeEnabled) : (waitOrTimeout v f s).writeEnabled = s.writeEnabled := by
  rcases waitOrTimeout_cases v f s with ⟨a, -, e⟩ | ⟨-, e⟩ <;> simp [e, hf]

/-! ## Changes of the turn -/

/-- From `s` to `t` the turn is gained only where `gain` holds, and lost only where `loss` holds. -/
structure TurnChange (gain loss : Prop) (s t : State) : Prop where
  gained : s.writeEnabled = false → t.writeEnabled = true → gain
  lost : s.writeEnabled = true → t.writeEnabled = false → loss

namespace TurnChange

variable {gain loss gain' loss' : Prop} {s t : State}

theorem kept (h : t.writeEnabled = s.writeEnabled) : TurnChange gain loss s t :=
  ⟨fun hs ht => by simp [h, hs] at ht, fun hs ht => by simp [h, hs] at ht⟩

theorem of_loss (hl : loss) (h : t.writeEnabled = false) : TurnChange gain loss s t :=
  ⟨fun _ ht => by simp [h] at ht, fun _ _ => hl⟩

theorem of_gain (hg : gain) (h : t.writeEnabled = true) : TurnChange gain loss s t :=
  ⟨fun _ _ => hg, fun _ ht => by simp [h] at ht⟩

theorem mono (h : TurnChange gain loss s t) (hg : gain → gain') (hl : loss → loss') : TurnChange gain' loss' s t :=
  ⟨fun hs ht => hg (h.gained hs ht), fun hs ht => hl (h.lost hs ht)⟩

end TurnChange

/-! ## Instructions -/

/-- A symbol leaves the turn alone. -/
theorem exec_symbol_writeEnabled {i : Instr} {s t : State} (hi : isSymbol i = true) (h : exec i s = .next t) :
    t.writeEnabled = s.writeEnabled := by
  rw [exec_symbol s hi] at h; cases h; rfl

/-- On a Slave only a read request that passes every check grants the turn, and only INIT and WRITE give it up
(spec/42_frame_transport.md R150; spec/43_driver_commands.md R160, R168). -/
theorem exec_turnChange {i : Instr} {s t : State} (hs : s.cfg.role = .slave) (h : exec i s = .next t) :
    TurnChange (∃ a, i = .frameRdreq a ∧ discardReason a s = none)
      (i = .cmdInit ∨ ∃ a d l, i = .cmdWrite a d l) s t := by
  cases i with
  | cmdInit =>
    rcases execCmdInit_cases h with ⟨-, rfl⟩ | ⟨-, rfl⟩
    · exact .of_loss (.inl rfl) (by simp [flagsInitOk, hs])
    · exact .of_loss (.inl rfl) rfl
  | cmdOpen mode =>
    rcases execCmdOpen_cases h with ⟨-, rfl⟩ | ⟨-, -, rfl⟩ | ⟨-, -, -, rfl⟩ | ⟨-, -, -, -, rfl⟩ | ⟨-, -, -, -, rfl⟩ <;>
      exact .kept rfl
  | cmdClose => rcases execCmdClose_cases h with ⟨-, rfl⟩ | ⟨-, -, rfl⟩ | ⟨-, -, rfl⟩ <;> exact .kept rfl
  | cmdRead maxLen => rcases execCmdRead_cases h with ⟨-, rfl⟩ | ⟨-, rfl⟩ <;> exact .kept rfl
  | cmdWrite addr dir len =>
    obtain ⟨-, h⟩ := execCmdWrite_cases h
    rcases h with ⟨-, rfl⟩ | ⟨-, -, -, rfl⟩ | ⟨-, -, rfl⟩ | ⟨-, -, -, rfl⟩
    · exact .kept rfl
    · exact .kept rfl
    · exact .kept (beginTransmit_writeEnabled _ _ s)
    · exact .of_loss (.inr ⟨addr, dir, len, rfl⟩) (beginTransmit_writeEnabled _ _ (takeTurn s))
  | frameRdreq a =>
    rcases execFrameRdreq_cases h with ⟨r, -, rfl⟩ | ⟨hr, rfl⟩
    · exact .kept rfl
    · exact .of_gain ⟨a, rfl, hr⟩ (by simp [turnGrant, hs])
  | frameData a => rcases execFrameData_cases h with ⟨r, -, rfl⟩ | ⟨-, rfl⟩ <;> exact .kept rfl
  | symSelect | symStart | symBit0 | symBit1 | symStop => exact .kept (exec_symbol_writeEnabled rfl h)

/-- A WRITE of a Slave with the turn takes it before anything is driven (spec/43_driver_commands.md R168). -/
theorem exec_cmdWrite_takes_turn {s : State} {len : Byte} (addr : Addr) (dir : BitVec 1) (hs : s.cfg.role = .slave)
    (hl : len.toNat ≤ 32) (hi : s.initialized = true) (hw : s.writeEnabled = true) :
    exec (.cmdWrite addr dir len) s = .next
      { takeTurn s with
        fb := frameBytes (txHeader s.cfg addr dir) (txPayload s len)
        phase := .transmitting (.preamble .select) } := by
  simp [exec, execCmdWrite, beginTransmit, Nat.not_lt.mpr hl, hi, hs, hw]

/-! ## Steps -/

/-- The host's next command word is an INIT or a WRITE. -/
def issuesInitOrWrite (s : State) : Prop :=
  ∃ w rest, s.phase = .ready ∧ s.inputs = .issue w :: rest ∧
    (decodeCmd w = .ok .cmdInit ∨ ∃ a d l, decodeCmd w = .ok (.cmdWrite a d l))

/-- The byte loop of Receive has ended on a read request that passes every check of a Slave
(spec/42_frame_transport.md R146, R148, R149, R150). -/
def holdsReadRequest (s : State) : Prop :=
  ∃ m h rest, s.phase = .receiving .judge m ∧ s.fb = h :: rest ∧ rest ≠ [] ∧ headerDir h = 0 ∧
    headerAddr h = s.cfg.ownAddress ∧ s.fb.getLast? = some (checksum s.fb.dropLast)

/-- The host can issue no frame (spec/30_encoding.md R107). -/
theorem decodeCmd_ne_frameRdreq (w : Word) (a : Addr) : decodeCmd w ≠ .ok (.frameRdreq a) := by
  intro h
  simp only [decodeCmd] at h
  repeat' split at h
  all_goals cases h

/-- A header that decodes to a read request has direction bit 0 and its address (spec/30_encoding.md R91). -/
theorem decodeHdr_eq_frameRdreq {b : Byte} {a : Addr} (h : decodeHdr b = .frameRdreq a) :
    headerDir b = 0 ∧ headerAddr b = a := by
  rcases decodeHdr_cases b with ⟨hd, e⟩ | ⟨-, e⟩
  · rw [e] at h
    cases h
    exact ⟨hd, rfl⟩
  · rw [e] at h
    cases h

/-- No header is an INIT or a WRITE. -/
theorem decodeHdr_not_initOrWrite (b : Byte) :
    ¬ (decodeHdr b = .cmdInit ∨ ∃ a d l, decodeHdr b = .cmdWrite a d l) := by
  rcases decodeHdr_cases b with ⟨-, e⟩ | ⟨-, e⟩ <;> simp [e]

/-- A read request without a reason to discard it has passed every check. -/
theorem holdsReadRequest_of_not_discarded {s : State} {m : Nat} {h : Byte} {rest : List Byte} {a : Addr}
    (hs : s.cfg.role = .slave) (hp : s.phase = .receiving .judge m) (hf : s.fb = h :: rest)
    (hd : decodeHdr h = .frameRdreq a) (hr : discardReason a s = none) : holdsReadRequest s := by
  obtain ⟨hlen, ha, hsum⟩ := discardReason_none hr
  obtain ⟨hdir, haddr⟩ := decodeHdr_eq_frameRdreq hd
  have hrest : rest ≠ [] := by rintro rfl; simp [hf] at hlen
  exact ⟨m, h, rest, hp, hf, hrest, hdir, haddr.trans (ha hs), (checksumHolds_iff s.fb).mp hsum⟩

/-- Of the sequencer's moves on a Slave only the end of the byte loop grants the turn, and only a command gives it up. -/
theorem moves_turnChange {s t : State} (hs : s.cfg.role = .slave) (h : Moves s t) :
    TurnChange (holdsReadRequest s) (issuesInitOrWrite s) s t := by
  cases h with
  | idle | wait | writeTx | pinSetup | noBytes => exact .kept rfl
  | command w rest i t hp hi hd he =>
    have change := exec_turnChange (s := accept w rest s) hs he
    refine ⟨fun hw ht => ?_, fun hw ht => ?_⟩
    · obtain ⟨a, rfl, -⟩ := change.gained hw ht
      exact absurd hd (decodeCmd_ne_frameRdreq w a)
    · rcases change.lost hw ht with rfl | ⟨a, d, l, rfl⟩
      · exact ⟨w, rest, hp, hi, .inl hd⟩
      · exact ⟨w, rest, hp, hi, .inr ⟨a, d, l, hd⟩⟩
  | opening p u _ he =>
    exact .kept ((afterSymbol_writeEnabled u).trans (exec_symbol_writeEnabled (preambleSymbol_isSymbol p) he))
  | transmitting p u _ he =>
    exact .kept ((afterSymbol_writeEnabled u).trans (exec_symbol_writeEnabled (txSymbol_isSymbol s.fb p) he))
  | seekLow m => exact .kept (waitOrTimeout_writeEnabled .low s fun u => rxAt_writeEnabled u _ m)
  | seekRise tLow m => exact .kept (waitOrTimeout_writeEnabled .high s fun u => by split <;> simp)
  | seekFall tRise m => exact .kept (waitOrTimeout_writeEnabled .low s fun u => by split <;> simp)
  | bitRise i acc m => exact .kept (waitOrTimeout_writeEnabled .high s fun u => rxAt_writeEnabled u _ m)
  | bitFall i acc tRise m => exact .kept (rxBitFall_writeEnabled i acc tRise m s)
  | frame m b rest t hp hf he =>
    refine (exec_turnChange hs he).mono ?_ ?_
    · rintro ⟨a, hd, hr⟩
      exact holdsReadRequest_of_not_discarded hs hp hf hd hr
    · exact fun hl => absurd hl (decodeHdr_not_initOrWrite b)

/-- To these a step adds the hardware resets that fall before it or within it. -/
theorem step_turnChange {s t : State} (hs : s.cfg.role = .slave) (h : step s = .next t) :
    TurnChange (holdsReadRequest s) (issuesInitOrWrite s ∨ ∃ r rest, s.resets = r :: rest ∧ r ≤ t.now) s t := by
  rcases step_eq_next_cases h with
    ⟨-, hu⟩ | ⟨r, rest, hr, hdue, rfl⟩ | ⟨r, rest, u, hr, -, hu, ⟨-, rfl⟩ | ⟨-, rfl⟩⟩
  · exact (moves_turnChange hs (stepCore_moves hu)).mono id .inl
  · exact .of_loss (.inr ⟨r, rest, hr, hdue⟩) (hardReset_writeEnabled s)
  · exact .of_loss (.inr ⟨r, rest, hr, Nat.le_refl r⟩) (resetDuring_writeEnabled r s u)
  · exact (moves_turnChange hs (stepCore_moves hu)).mono id .inl

end Sys2Proof.Machine

namespace Sys2Proof

open Machine in
/-- Settles O37: every step keeps the turn but where a read request is accepted, where an INIT or a WRITE is issued, and
where a hardware reset falls; and a WRITE has taken it when it stands before its preamble. -/
theorem theTurnComesFromAReadRequest : Obligations.TheTurnComesFromAReadRequest := by
  intro s hs
  refine ⟨?gain, ?loss, ?write⟩
  case gain => exact fun t h => (step_turnChange hs h).gained
  case loss => exact fun t h => (step_turnChange hs h).lost
  case write =>
    intro a d l hl hi hw
    exact ⟨_, exec_cmdWrite_takes_turn a d hs (of_decide_eq_true hl) hi hw, rfl, rfl, rfl, rfl⟩

end Sys2Proof
end

