-- ==== Sys2Proof/Proofs/Uninitialized.lean ====
section
/-! SUPPORT and PROOF. Host commands on a node that is not initialized (spec/60_exceptions.md R181, R190): the first test of
every command but INIT, and the two codes INIT can end with. -/

namespace Sys2Proof.Machine

variable {s : State}

/-- Taking an exception is the end of the command with the code and `COUNT` 0 (spec/60_exceptions.md R193). -/
theorem raiseStatus_eq_ended (e : StatusCode) (s : State) : raiseStatus e s = Claims.ended (statusWord e 0) s := rfl

/-! ## The test of `initialized` comes first -/

theorem execCmdOpen_uninitialized (mode : Byte) (h : s.initialized = false) :
    execCmdOpen mode s = .next (raiseStatus .notInitialized s) :=
  if_pos h

theorem execCmdClose_uninitialized (h : s.initialized = false) :
    execCmdClose s = .next (raiseStatus .notInitialized s) :=
  if_pos h

theorem execCmdRead_uninitialized (maxLen : Byte) (h : s.initialized = false) :
    execCmdRead maxLen s = .next (raiseStatus .notInitialized s) :=
  if_pos h

/-- A WRITE of more than 32 bytes is no instruction, so its length comes before the test (spec/30_encoding.md R102). -/
theorem execCmdWrite_uninitialized {len : Byte} (addr : Addr) (dir : BitVec 1) (hl : len.toNat ≤ 32)
    (h : s.initialized = false) : execCmdWrite addr dir len s = .next (raiseStatus .notInitialized s) := by
  rw [execCmdWrite, if_neg (Nat.not_lt.mpr hl), if_pos h]

/-! ## INIT -/

/-- INIT ends with `Ok` or `NotReady`, from any state (spec/43_driver_commands.md R160). -/
theorem execCmdInit_status {t : State} (h : execCmdInit s = .next t) :
    t.status = statusWord .ok 0 ∨ t.status = statusWord .notReady 0 := by
  rcases execCmdInit_cases h with ⟨-, rfl⟩ | ⟨-, rfl⟩
  · exact .inl (returnOk_status _ 0)
  · exact .inr (raiseStatus_status _ .notReady)

end Sys2Proof.Machine

namespace Sys2Proof

open Machine in
/-- Settles O2: every command but INIT raises `NotInitialized` at its first test, and neither code INIT ends with is that
one. -/
theorem uninitializedCommandsFail : Obligations.UninitializedCommandsFail := by
  intro s hs
  have raised : raiseStatus .notInitialized s = Claims.ended 0x01000000 s := raiseStatus_eq_ended .notInitialized s
  rw [← raised]
  refine ⟨?opening, ?closing, ?reading, ?writing, ?init⟩
  case opening => exact fun mode => execCmdOpen_uninitialized mode hs
  case closing => exact execCmdClose_uninitialized hs
  case reading => exact fun maxLen => execCmdRead_uninitialized maxLen hs
  case writing => exact fun addr dir _ hwf => execCmdWrite_uninitialized addr dir (of_decide_eq_true hwf) hs
  case init =>
    intro t ht
    rcases execCmdInit_status ht with e | e <;> rw [e] <;> decide

end Sys2Proof
end

