-- ==== Sys2Proof/Proofs/Encoding.lean ====
section
/-! SUPPORT and PROOF. The three formats (spec/30_encoding.md R80, R88, R95 to R102, R107) and the status word (R101): a
word is its four byte fields, and a mask of the opcode table looks at whole fields. -/

namespace Sys2Proof

/-! ## Words as four fields -/

/-- Words with the same fields are the same word. -/
theorem word_eq_iff (w w' : Word) :
    w = w' ↔ fieldOp w = fieldOp w' ∧ fieldA w = fieldA w' ∧ fieldB w = fieldB w' ∧ fieldZ w = fieldZ w' := by
  refine ⟨by rintro rfl; simp, fun ⟨hop, ha, hb, hz⟩ => ?_⟩
  have value (v : Word) : v.toNat = ((fieldOp v).toNat * 256 + (fieldA v).toNat) * 65536 +
      ((fieldB v).toNat * 256 + (fieldZ v).toNat) := by
    have hlt := v.isLt
    simp only [fieldOp, fieldA, fieldB, fieldZ, BitVec.extractLsb'_toNat, Nat.shiftRight_eq_div_pow]
    omega
  apply BitVec.eq_of_toNat_eq
  rw [value w, value w', hop, ha, hb, hz]

theorem fieldOp_and (w m : Word) : fieldOp (w &&& m) = fieldOp w &&& fieldOp m := BitVec.extractLsb'_and

theorem fieldA_and (w m : Word) : fieldA (w &&& m) = fieldA w &&& fieldA m := BitVec.extractLsb'_and

theorem fieldB_and (w m : Word) : fieldB (w &&& m) = fieldB w &&& fieldB m := BitVec.extractLsb'_and

theorem fieldZ_and (w m : Word) : fieldZ (w &&& m) = fieldZ w &&& fieldZ m := BitVec.extractLsb'_and

/-- A word under a mask, field by field. -/
theorem and_mask_eq_iff (w m v : Word) :
    w &&& m = v ↔ fieldOp w &&& fieldOp m = fieldOp v ∧ fieldA w &&& fieldA m = fieldA v ∧
      fieldB w &&& fieldB m = fieldB v ∧ fieldZ w &&& fieldZ m = fieldZ v := by
  rw [word_eq_iff, fieldOp_and, fieldA_and, fieldB_and, fieldZ_and]

theorem shiftRight_24 (w : Word) : w >>> 24 = (fieldOp w).setWidth 32 := by
  apply BitVec.eq_of_toNat_eq
  have hlt := w.isLt
  simp only [fieldOp, BitVec.toNat_ushiftRight, BitVec.toNat_setWidth, BitVec.extractLsb'_toNat,
    Nat.shiftRight_eq_div_pow]
  omega

theorem shiftRight_16_and (w : Word) : w >>> 16 &&& 0xFF#32 = (fieldA w).setWidth 32 := by
  apply BitVec.eq_of_toNat_eq
  simp only [fieldA, BitVec.toNat_and, BitVec.toNat_ushiftRight, BitVec.toNat_setWidth, BitVec.extractLsb'_toNat]
  exact (Nat.and_two_pow_sub_one_eq_mod _ 8).trans (by omega)

theorem fieldB_cmdWord (op a : Byte) (ad : Addr) (d : BitVec 1) : fieldB (cmdWord op a ad d) = headerByte ad d := by
  rw [fieldB_eq, fieldAddr_cmdWord, fieldDir_cmdWord]; rfl

/-- Field `B` is zero only where both its parts are. -/
theorem fieldB_eq_zero {w : Word} (h : fieldB w = 0) : fieldAddr w = 0 ∧ fieldDir w = 0 := by
  have hb : headerByte (fieldAddr w) (fieldDir w) = 0 := (fieldB_eq w).symm.trans h
  exact ⟨(headerAddr_headerByte _ _).symm.trans (by rw [hb]; rfl),
    (headerDir_headerByte _ _).symm.trans (by rw [hb]; rfl)⟩

/-! ## Command words -/

/-- The words that decode, by their fields: the five rows of spec/30_encoding.md R96 to R100. -/
theorem decodeCmd_eq_ok_iff (w : Word) (i : Instr) :
    decodeCmd w = .ok i ↔
      (fieldOp w = 0x01 ∧ (fieldA w = 0 ∧ fieldB w = 0 ∧ fieldZ w = 0) ∧ i = .cmdInit) ∨
      (fieldOp w = 0x02 ∧ (fieldB w = 0 ∧ fieldZ w = 0) ∧ i = .cmdOpen (fieldA w)) ∨
      (fieldOp w = 0x03 ∧ (fieldA w = 0 ∧ fieldB w = 0 ∧ fieldZ w = 0) ∧ i = .cmdClose) ∨
      (fieldOp w = 0x04 ∧ (fieldB w = 0 ∧ fieldZ w = 0) ∧ i = .cmdRead (fieldA w)) ∨
      (fieldOp w = 0x05 ∧ fieldZ w = 0 ∧ (fieldA w).toNat ≤ 32 ∧
        i = .cmdWrite (fieldAddr w) (fieldDir w) (fieldA w)) := by
  constructor
  · intro h
    simp only [decodeCmd] at h
    split_ifs at h <;> cases h <;> simp_all
  · rintro (⟨hop, hz, rfl⟩ | ⟨hop, hz, rfl⟩ | ⟨hop, hz, rfl⟩ | ⟨hop, hz, rfl⟩ | ⟨hop, hz, hl, rfl⟩) <;>
      simp [decodeCmd, *]

/-- A word with zeros in field `B` is laid out from `OP` and `A` alone. -/
theorem cmdWord_op_a {w : Word} (hb : fieldB w = 0) (hz : fieldZ w = 0) : cmdWord (fieldOp w) (fieldA w) 0 0 = w := by
  obtain ⟨haddr, hdir⟩ := fieldB_eq_zero hb
  have h := (cmdWord_fields w).mpr hz
  rwa [haddr, hdir] at h

theorem decodeCmd_error_iff (w : Word) : (∃ e, decodeCmd w = .error e) ↔ ¬ ∃ i, decodeCmd w = .ok i := by
  cases decodeCmd w <;> simp

/-- Settles O22: command words by their fields, symbols by evaluation, headers by their two parts. -/
theorem decodeOfEncode : Obligations.DecodeOfEncode := by
  intro i hi
  have command (op a : Byte) (ad : Addr) (d : BitVec 1) (i : Instr) :=
    decodeCmd_eq_ok_iff (cmdWord op a ad d) i
  simp only [fieldOp_cmdWord, fieldA_cmdWord, fieldB_cmdWord, fieldZ_cmdWord, fieldAddr_cmdWord, fieldDir_cmdWord]
    at command
  have noOperand : headerByte 0#7 0#1 = 0#8 := rfl
  cases i with
  | cmdInit | cmdOpen | cmdClose | cmdRead => exact (command ..).mpr (by simp [noOperand])
  | cmdWrite addr dir len => exact (command ..).mpr (by simpa [Instr.wf] using hi)
  | symSelect | symStart | symBit0 | symBit1 | symStop => decide
  | frameRdreq a | frameData a =>
    simp [encode, decode, decodeHdr, headerDir_headerByte, headerAddr_headerByte]

theorem decodeSym_eq_ok {p : List Bool} {i : Instr} (h : decodeSym p = .ok i) : i.wf = true ∧ encode i = .sym p := by
  simp only [decodeSym] at h
  split_ifs at h with h1 h2 h3 h4 h5 <;> cases h <;> simp [Instr.wf, encode, *]

theorem encode_decodeHdr (b : Byte) : (decodeHdr b).wf = true ∧ encode (decodeHdr b) = .hdr b := by
  rcases Machine.decodeHdr_cases b with ⟨hd, e⟩ | ⟨hd, e⟩
  · rw [e, encode, ← hd, headerByte_fields]
    exact ⟨rfl, rfl⟩
  · have hd : headerDir b = 1 := by
      revert hd
      generalize headerDir b = d
      revert d; decide
    rw [e, encode, ← hd, headerByte_fields]
    exact ⟨rfl, rfl⟩

/-- Settles O23: each row's fields lay out the word again. -/
theorem encodeOfDecode : Obligations.EncodeOfDecode := by
  intro c i h
  cases c with
  | cmd w =>
    rcases (decodeCmd_eq_ok_iff w i).mp h with ⟨hop, ⟨ha, hb, hz⟩, rfl⟩ | ⟨hop, ⟨hb, hz⟩, rfl⟩ | ⟨hop, ⟨ha, hb, hz⟩, rfl⟩ |
      ⟨hop, ⟨hb, hz⟩, rfl⟩ | ⟨hop, hz, hl, rfl⟩
    · exact ⟨rfl, by rw [encode, ← hop, ← ha, cmdWord_op_a hb hz]⟩
    · exact ⟨rfl, by rw [encode, ← hop, cmdWord_op_a hb hz]⟩
    · exact ⟨rfl, by rw [encode, ← hop, ← ha, cmdWord_op_a hb hz]⟩
    · exact ⟨rfl, by rw [encode, ← hop, cmdWord_op_a hb hz]⟩
    · exact ⟨decide_eq_true hl, by rw [encode, ← hop, (cmdWord_fields w).mpr hz]⟩
  | sym p => exact decodeSym_eq_ok h
  | hdr b =>
    cases h
    exact encode_decodeHdr b

/-! ## The masks of the table -/

theorem and_ones (b : Byte) : b &&& 0xFF#8 = b := BitVec.and_allOnes

/-- The mask of INIT and CLOSE looks at every field. -/
theorem and_maskAll_eq_iff (w : Word) (op : Byte) :
    w &&& 0xFFFFFFFF#32 = cmdWord op 0 0 0 ↔ fieldOp w = op ∧ fieldA w = 0 ∧ fieldB w = 0 ∧ fieldZ w = 0 := by
  rw [and_mask_eq_iff, fieldOp_cmdWord, fieldA_cmdWord, fieldB_cmdWord, fieldZ_cmdWord]
  change fieldOp w &&& 0xFF#8 = op ∧ fieldA w &&& 0xFF#8 = 0 ∧ fieldB w &&& 0xFF#8 = 0 ∧ fieldZ w &&& 0xFF#8 = 0 ↔ _
  simp only [and_ones]

/-- The mask of OPEN and READ leaves field `A` free. -/
theorem and_maskA_eq_iff (w : Word) (op : Byte) :
    w &&& 0xFF00FFFF#32 = cmdWord op 0 0 0 ↔ fieldOp w = op ∧ fieldB w = 0 ∧ fieldZ w = 0 := by
  rw [and_mask_eq_iff, fieldOp_cmdWord, fieldA_cmdWord, fieldB_cmdWord, fieldZ_cmdWord]
  change fieldOp w &&& 0xFF#8 = op ∧ fieldA w &&& 0#8 = 0 ∧ fieldB w &&& 0xFF#8 = 0 ∧ fieldZ w &&& 0xFF#8 = 0 ↔ _
  simp [and_ones]

/-- The mask of WRITE leaves fields `A` and `B` free. -/
theorem and_maskAB_eq_iff (w : Word) (op : Byte) :
    w &&& 0xFF0000FF#32 = cmdWord op 0 0 0 ↔ fieldOp w = op ∧ fieldZ w = 0 := by
  rw [and_mask_eq_iff, fieldOp_cmdWord, fieldA_cmdWord, fieldB_cmdWord, fieldZ_cmdWord]
  change fieldOp w &&& 0xFF#8 = op ∧ fieldA w &&& 0#8 = 0 ∧ fieldB w &&& 0#8 = 0 ∧ fieldZ w &&& 0xFF#8 = 0 ↔ _
  simp [and_ones]

/-- Settles O24: each row's mask and match say which fields have which value, which is what the decoder tests. -/
theorem reservedWordsAreThoseOfTheTable : Obligations.ReservedWordsAreThoseOfTheTable := by
  intro w
  have hlen : (w >>> 16 &&& 0xFF#32).toNat = (fieldA w).toNat := by
    rw [shiftRight_16_and, BitVec.toNat_setWidth_of_le (by decide)]
  rw [decodeCmd_error_iff, hlen, show 0x01000000#32 = cmdWord 1 0 0 0 from rfl,
    show 0x02000000#32 = cmdWord 2 0 0 0 from rfl, show 0x03000000#32 = cmdWord 3 0 0 0 from rfl,
    show 0x04000000#32 = cmdWord 4 0 0 0 from rfl, show 0x05000000#32 = cmdWord 5 0 0 0 from rfl]
  simp only [ne_eq, and_maskAll_eq_iff, and_maskA_eq_iff, and_maskAB_eq_iff, decodeCmd_eq_ok_iff]
  by_cases hop : fieldOp w = 5
  · simp only [hop]
    by_cases hz : fieldZ w = 0#8 <;> simp [hz]
  · simp only [hop]
    simp [exists_or]

/-! ## The words of the spec -/

/-- Settles O25: every word is written out, and the decoders compute. -/
theorem wordsOfTheSpecDecode : Obligations.WordsOfTheSpecDecode := by
  unfold Obligations.WordsOfTheSpecDecode
  decide

/-! ## The status word -/

namespace Machine

/-- `STATUS` has the layout of a command word without the operands in `B` (spec/30_encoding.md R95, R101). -/
theorem statusWord_eq_cmdWord (c : StatusCode) (n : Nat) : statusWord c n = cmdWord c.code (BitVec.ofNat 8 n) 0 0 := by
  exact (BitVec.append_assoc (x₁ := c.code ++ BitVec.ofNat 8 n) (x₂ := 0#8) (x₃ := 0#8)).symm

end Machine

/-- Settles O26: the fields of the status word, read by shifts and masks. -/
theorem statusWordFields : Obligations.StatusWordFields := by
  refine ⟨fun c n => ?_, by decide⟩
  rw [Machine.statusWord_eq_cmdWord, shiftRight_24, shiftRight_16_and, fieldOp_cmdWord, fieldA_cmdWord]
  refine ⟨rfl, rfl, ?_⟩
  rw [and_mask_eq_iff, fieldOp_cmdWord, fieldA_cmdWord, fieldB_cmdWord, fieldZ_cmdWord]
  exact ⟨BitVec.and_zero, BitVec.and_zero, rfl, rfl⟩

end Sys2Proof
end

