-- ==== Sys2Proof/Proofs/Invariant.lean ====
section
/-! SUPPORT and PROOF. The invariant of a node (spec/10_state.md R24 to R27, R31, R32) in three parts: the flags, the records
of the past, and the position with its local variables; what each kind of move does to each part. -/

namespace Sys2Proof.Machine

/-- What the invariant says of the flags (spec/10_state.md R23, R25, R26, R31). -/
structure FlagsInv (s : State) : Prop where
  busyInitialized : s.busy = true → s.initialized = true
  turnInitialized : s.writeEnabled = true → s.initialized = true
  masterHolds : s.cfg.role = .master → s.writeEnabled = s.initialized
  preambleOpen : s.preambleSent = true → s.cfg.role = .master ∧ s.busy = true

/-- The record of lows lies in the past. -/
def LowsPast (s : State) : Prop := ∀ sp ∈ s.lows, sp.start + sp.len ≤ s.now

/-- What the invariant says of the last command and of the record of lows. -/
structure PastInv (s : State) : Prop where
  statusForm : s.endTick ≠ none → ∃ c n, s.status = statusWord c n ∧ c.code.toNat ≤ 6
  ended : ∀ e, s.endTick = some e → e ≤ s.now
  lowsPast : LowsPast s

variable {s t : State}

theorem NodeInv.flags (h : NodeInv s) : FlagsInv s :=
  ⟨h.busyInitialized, h.turnInitialized, h.masterHolds, h.preambleOpen⟩

theorem NodeInv.past (h : NodeInv s) : PastInv s := ⟨h.statusForm, h.ended, h.lowsPast⟩

theorem NodeInv.of_parts (hf : FlagsInv s) (hp : PastInv s) (hi : s.phase ≠ .ready → s.initialized = true)
    (ho : s.out = outputOf s.phase) (hl : phaseOk s s.phase) (hlen : s.fb.length ≤ 34) : NodeInv s :=
  ⟨hf.busyInitialized, hf.turnInitialized, hf.masterHolds, hf.preambleOpen, hi, ho, hl, hlen, hp.statusForm, hp.ended,
    hp.lowsPast⟩

theorem NodeInv.phaseOk_of {ph : Phase} (h : NodeInv s) (hp : s.phase = ph) : phaseOk s ph := hp ▸ h.locals

theorem NodeInv.out_of {ph : Phase} (h : NodeInv s) (hp : s.phase = ph) : s.out = outputOf ph := hp ▸ h.output

theorem NodeInv.initialized_of {ph : Phase} (h : NodeInv s) (hp : s.phase = ph) (hne : ph ≠ .ready) :
    s.initialized = true := h.runningInitialized (hp ▸ hne)

/-! ## The flags -/

theorem FlagsInv.of_eq (h : FlagsInv s) (hc : t.cfg = s.cfg) (hi : t.initialized = s.initialized) (hb : t.busy = s.busy)
    (hw : t.writeEnabled = s.writeEnabled) (hp : t.preambleSent = s.preambleSent) : FlagsInv t := by
  obtain ⟨h1, h2, h3, h4⟩ := h
  rw [← hc] at h3 h4
  rw [← hi] at h1 h2 h3
  rw [← hb] at h1 h4
  rw [← hw] at h2 h3
  rw [← hp] at h4
  exact ⟨h1, h2, h3, h4⟩

theorem FlagsInv.flagsInitOk (s : State) : FlagsInv (flagsInitOk s) := by
  constructor <;> simp +contextual [Machine.flagsInitOk]

theorem FlagsInv.flagsInitFailed (s : State) : FlagsInv (flagsInitFailed s) := by
  constructor <;> simp [Machine.flagsInitFailed]

theorem FlagsInv.setBusy (h : FlagsInv s) (hi : s.initialized = true) : FlagsInv (setBusy s) :=
  ⟨fun _ => hi, h.turnInitialized, h.masterHolds, fun hp => ⟨(h.preambleOpen hp).1, rfl⟩⟩

theorem FlagsInv.clearBusy (h : FlagsInv s) (hp : s.preambleSent = false) : FlagsInv (clearBusy s) :=
  ⟨fun hb => by simp at hb, h.turnInitialized, h.masterHolds, fun hs => by simp [hp] at hs⟩

theorem FlagsInv.clearPreamble (h : FlagsInv s) : FlagsInv (clearPreamble s) :=
  ⟨h.busyInitialized, h.turnInitialized, h.masterHolds, fun hs => by simp at hs⟩

theorem FlagsInv.setPreamble (h : FlagsInv s) (hm : s.cfg.role = .master) (hb : s.busy = true) :
    FlagsInv (setPreamble s) :=
  ⟨h.busyInitialized, h.turnInitialized, h.masterHolds, fun _ => ⟨hm, hb⟩⟩

theorem FlagsInv.takeTurn (h : FlagsInv s) (hs : s.cfg.role = .slave) : FlagsInv (takeTurn s) :=
  ⟨h.busyInitialized, fun hw => by simp at hw, fun hm => by simp [hs] at hm, h.preambleOpen⟩

/-- Step 6 writes the turn, on a Slave, and nothing else (spec/42_frame_transport.md R150). -/
theorem turnGrant_eq (s : State) :
    turnGrant s = { s with writeEnabled := decide (s.cfg.role = .slave) || s.writeEnabled } := by
  unfold turnGrant
  split
  · next hs => simp [grantTurn, hs]
  · next hm => simp [hm]

theorem FlagsInv.turnGrant (h : FlagsInv s) (hi : s.initialized = true) : FlagsInv (turnGrant s) := by
  rw [turnGrant_eq]
  refine ⟨h.busyInitialized, fun _ => hi, fun (hm : s.cfg.role = .master) => ?_, h.preambleOpen⟩
  simpa [hm] using h.masterHolds hm

/-- A Slave has no preamble of its own to use (spec/10_state.md R31). -/
theorem FlagsInv.slave_preamble (h : FlagsInv s) (hs : s.cfg.role = .slave) : s.preambleSent = false := by
  by_contra hp
  have hm := (h.preambleOpen (by simpa using hp)).1
  simp [hs] at hm

/-! ## The past -/

/-- Time passes. -/
theorem PastInv.later (h : PastInv s) (hs : t.status = s.status) (he : t.endTick = s.endTick) (hl : t.lows = s.lows)
    (hn : s.now ≤ t.now) : PastInv t := by
  obtain ⟨h1, h2, h3⟩ := h
  refine ⟨by rwa [hs, he], fun e hx => ?_, fun sp hsp => ?_⟩
  · exact (h2 e (he ▸ hx)).trans hn
  · exact (h3 sp (hl ▸ hsp)).trans hn

theorem exec_symbol_past {i : Instr} (hi : isSymbol i = true) (h : PastInv s) (he : exec i s = .next t) : PastInv t := by
  rw [exec_symbol s hi] at he
  cases he
  refine ⟨h.statusForm, fun e hx => ?_, fun sp hsp => ?_⟩
  · exact (h.ended e hx).trans (Nat.le_add_right _ _)
  · rcases List.mem_append.mp hsp with hsp | hsp
    · exact (h.lowsPast sp hsp).trans (Nat.le_add_right _ _)
    · exact (symbolLows_within s.cfg s.now i sp hsp).2

theorem exec_symbol_flags {i : Instr} (hi : isSymbol i = true) (h : FlagsInv s) (he : exec i s = .next t) :
    FlagsInv t := by
  rw [exec_symbol s hi] at he
  cases he
  exact h.of_eq rfl rfl rfl rfl rfl

/-! ## The end of a command -/

/-- However a command ends, only the flags and the record of lows are left to ask for. -/
theorem NodeInv.endCommand {c : StatusCode} (n : Nat) (hf : FlagsInv s) (hl : LowsPast s) (ho : s.out = .released)
    (hc : c.code.toNat ≤ 6) : NodeInv (endCommand c n s) :=
  .of_parts (hf.of_eq rfl rfl rfl rfl rfl)
    ⟨fun _ => ⟨c, n, rfl, hc⟩, fun e he => by cases he; exact Nat.le_refl _, hl⟩ (fun hp => absurd rfl hp) ho trivial
    (Nat.zero_le _)

theorem NodeInv.raiseStatus {c : StatusCode} (h : NodeInv s) (ho : s.out = .released) (hc : c.code.toNat ≤ 6) :
    NodeInv (raiseStatus c s) :=
  .endCommand 0 h.flags h.lowsPast ho hc

theorem NodeInv.returnOk (n : Nat) (hf : FlagsInv s) (hl : LowsPast s) (ho : s.out = .released) :
    NodeInv (returnOk n s) :=
  .endCommand n hf hl ho (by decide)

/-! ## Commands -/

theorem isFrame_frameBytes {h : Byte} {p : List Byte} (hp : p.length ≤ 32) : isFrame (frameBytes h p) := ⟨h, p, hp, rfl⟩

/-- Transmit begins at a position in its range. -/
theorem NodeInv.beginTransmit {h : Byte} {p : List Byte} (hp : p.length ≤ 32) (hf : FlagsInv s) (hpast : PastInv s)
    (ho : s.out = .released) (hi : s.initialized = true) : NodeInv (beginTransmit h p s) := by
  have hlen : (frameBytes h p).length ≤ 34 := by rw [frameBytes_length]; omega
  rcases beginTransmit_cases h p s with ⟨-, -, e⟩ | ⟨-, e⟩ <;> rw [e]
  · refine .of_parts (hf.clearPreamble.of_eq rfl rfl rfl rfl rfl) ⟨hpast.statusForm, hpast.ended, hpast.lowsPast⟩
      (fun _ => hi) ho ⟨isFrame_frameBytes hp, ?_, by decide⟩ hlen
    show 0 < (frameBytes h p).length
    rw [frameBytes_length]; omega
  · exact .of_parts (hf.of_eq rfl rfl rfl rfl rfl) ⟨hpast.statusForm, hpast.ended, hpast.lowsPast⟩ (fun _ => hi) ho
      (isFrame_frameBytes hp) hlen

/-- A host command keeps the invariant of a `Ready` node. -/
theorem exec_command_inv {w : Word} {i : Instr} (hd : decodeCmd w = .ok i) (h : NodeInv s) (hp : s.phase = .ready)
    (he : exec i s = .next t) : NodeInv t := by
  have ho : s.out = .released := h.out_of hp
  rcases (decodeCmd_eq_ok_iff w i).mp hd with ⟨-, -, rfl⟩ | ⟨-, -, rfl⟩ | ⟨-, -, rfl⟩ | ⟨-, -, rfl⟩ | ⟨-, -, hlen, rfl⟩
  · rcases execCmdInit_cases he with ⟨-, rfl⟩ | ⟨-, rfl⟩
    · exact .returnOk 0 (.flagsInitOk _) h.lowsPast rfl
    · exact .endCommand 0 (.flagsInitFailed _) h.lowsPast rfl (by decide)
  · rcases execCmdOpen_cases he with ⟨-, rfl⟩ | ⟨-, -, rfl⟩ | ⟨-, -, -, rfl⟩ | ⟨hi, -, -, hm, rfl⟩ | ⟨hi, -, -, -, rfl⟩
    · exact h.raiseStatus ho (by decide)
    · exact h.raiseStatus ho (by decide)
    · exact h.raiseStatus ho (by decide)
    · exact .of_parts ((h.flags.setBusy hi).of_eq rfl rfl rfl rfl rfl) ⟨h.statusForm, h.ended, h.lowsPast⟩
        (fun _ => hi) ho ⟨hm, rfl⟩ h.frameLength
    · exact .returnOk 0 (h.flags.setBusy hi) h.lowsPast ho
  · rcases execCmdClose_cases he with ⟨-, rfl⟩ | ⟨-, -, rfl⟩ | ⟨-, hs, rfl⟩
    · exact h.raiseStatus ho (by decide)
    · exact .returnOk 0 (.clearBusy (.clearPreamble (h.flags.of_eq rfl rfl rfl rfl rfl)) rfl) h.lowsPast rfl
    · exact .returnOk 0 (h.flags.clearBusy (h.flags.slave_preamble hs)) h.lowsPast ho
  · rcases execCmdRead_cases he with ⟨-, rfl⟩ | ⟨hi, rfl⟩
    · exact h.raiseStatus ho (by decide)
    · exact .of_parts (h.flags.clearPreamble.of_eq rfl rfl rfl rfl rfl) ⟨h.statusForm, h.ended, h.lowsPast⟩
        (fun _ => hi) ho ⟨Nat.min_le_right _ _, rfl⟩ (Nat.zero_le _)
  · have hpay : (txPayload s (fieldA w)).length ≤ 32 := by rwa [txPayload_length s _ hlen]
    obtain ⟨-, he⟩ := execCmdWrite_cases he
    rcases he with ⟨-, rfl⟩ | ⟨-, -, -, rfl⟩ | ⟨hi, -, rfl⟩ | ⟨hi, hs, -, rfl⟩
    · exact h.raiseStatus ho (by decide)
    · exact h.raiseStatus ho (by decide)
    · exact .beginTransmit hpay h.flags h.past ho hi
    · exact .beginTransmit hpay (h.flags.takeTurn hs) ⟨h.statusForm, h.ended, h.lowsPast⟩ ho hi

/-! ## Symbols -/

theorem outAfter_bitSymbol (v : Bool) : outAfter (bitSymbol v) = .released := by cases v <;> rfl

/-- The position after a symbol of Transmit is in its range, and has the output the symbol leaves. -/
theorem txNext_some {p q : TxPos} (h : txNext s.fb p = some q) (hp : phaseOk s (.transmitting p)) :
    phaseOk s (.transmitting q) ∧ outAfter (txSymbol s.fb p) = outputOf (.transmitting q) := by
  cases p with
  | preamble p =>
    have hframe : isFrame s.fb := hp
    cases p with
    | select => cases h; exact ⟨hframe, rfl⟩
    | start =>
      cases h
      refine ⟨⟨hframe, ?_, by decide⟩, rfl⟩
      obtain ⟨b, l, -, e⟩ := hframe
      rw [e, frameBytes_length]; omega
  | bit k i =>
    obtain ⟨hframe, hk, hi⟩ := hp
    cases i with
    | succ i => cases h; exact ⟨⟨hframe, hk, by omega⟩, outAfter_bitSymbol _⟩
    | zero =>
      simp only [txNext] at h
      split at h
      · next hk' => cases h; exact ⟨⟨hframe, hk', by decide⟩, outAfter_bitSymbol _⟩
      · cases h; exact ⟨hframe, outAfter_bitSymbol _⟩
  | stop => cases h

theorem phaseOk_transmitting {p : TxPos} (e : t.fb = s.fb) (h : phaseOk s (.transmitting p)) :
    phaseOk t (.transmitting p) := by
  cases p <;> simpa only [phaseOk, e] using h

/-- Only the stop symbol is the last. -/
theorem txNext_none {fb : List Byte} {p : TxPos} (h : txNext fb p = none) : p = .stop := by
  cases p with
  | preamble p => cases p <;> cases h
  | bit k i =>
    cases i with
    | succ i => cases h
    | zero => simp only [txNext] at h; split at h <;> cases h
  | stop => rfl

theorem afterSymbol_transmitting {p : TxPos} (hp : s.phase = .transmitting p) :
    (∃ q, txNext s.fb p = some q ∧ afterSymbol s = { s with phase := .transmitting q }) ∨
    (txNext s.fb p = none ∧ afterSymbol s = returnOk (s.fb.length - 2) s) := by
  cases hq : txNext s.fb p with
  | some q => exact .inl ⟨q, rfl, by simp only [afterSymbol, hp, hq]⟩
  | none => exact .inr ⟨rfl, by simp only [afterSymbol, hp, hq]⟩

theorem opening_inv {p : PreamblePos} (h : NodeInv s) (hp : s.phase = .opening p)
    (he : exec (preambleSymbol p) s = .next t) : NodeInv (afterSymbol t) := by
  have hpast := exec_symbol_past (preambleSymbol_isSymbol p) h.past he
  have hflags := exec_symbol_flags (preambleSymbol_isSymbol p) h.flags he
  have hi := h.initialized_of hp (by simp)
  obtain ⟨hm, hb⟩ : s.cfg.role = .master ∧ s.busy = true := h.phaseOk_of hp
  rw [exec_symbol s (preambleSymbol_isSymbol p)] at he
  cases he
  cases p with
  | select =>
    simp only [afterSymbol, hp]
    exact .of_parts (hflags.of_eq rfl rfl rfl rfl rfl) ⟨hpast.statusForm, hpast.ended, hpast.lowsPast⟩ (fun _ => hi) rfl
      ⟨hm, hb⟩ h.frameLength
  | start =>
    simp only [afterSymbol, hp]
    exact .returnOk 0 (FlagsInv.setPreamble (hflags.of_eq rfl rfl rfl rfl rfl) hm hb) hpast.lowsPast rfl

theorem transmitting_inv {p : TxPos} (h : NodeInv s) (hp : s.phase = .transmitting p)
    (he : exec (txSymbol s.fb p) s = .next t) : NodeInv (afterSymbol t) := by
  have hpast := exec_symbol_past (txSymbol_isSymbol s.fb p) h.past he
  have hflags := exec_symbol_flags (txSymbol_isSymbol s.fb p) h.flags he
  have hi := h.initialized_of hp (by simp)
  rw [exec_symbol s (txSymbol_isSymbol s.fb p)] at he
  cases he
  rcases afterSymbol_transmitting (s := { s with
      out := outAfter (txSymbol s.fb p), now := s.now + symbolTicks s.cfg (txSymbol s.fb p),
      lows := s.lows ++ symbolLows s.cfg s.now (txSymbol s.fb p) }) hp with ⟨q, hq, e⟩ | ⟨hq, e⟩ <;> rw [e]
  · obtain ⟨hok, hout⟩ := txNext_some hq (phaseOk_transmitting (s := s) rfl (h.phaseOk_of hp))
    exact .of_parts (hflags.of_eq rfl rfl rfl rfl rfl) ⟨hpast.statusForm, hpast.ended, hpast.lowsPast⟩ (fun _ => hi) hout
      (phaseOk_transmitting rfl hok) h.frameLength
  · cases txNext_none hq
    exact .returnOk _ hflags hpast.lowsPast rfl

/-! ## Receive -/

/-- A move from one position of Receive to another: what is left to ask for is the new position's range. -/
theorem NodeInv.receive {p q : RxPos} {m n : Nat} (h : NodeInv s) (hp : s.phase = .receiving p m)
    (e : t = { s with now := t.now, phase := .receiving q n, fb := t.fb, discards := t.discards }) (hn : s.now ≤ t.now)
    (hq : phaseOk t (.receiving q n)) (hl : t.fb.length ≤ 34) : NodeInv t := by
  have hi := h.initialized_of hp (by simp)
  have ho := h.out_of hp
  have hph : t.phase = .receiving q n := by rw [e]
  refine .of_parts ?_ ?_ (fun _ => ?_) ?_ (hph ▸ hq) hl
  · rw [e]; exact h.flags.of_eq rfl rfl rfl rfl rfl
  · exact h.past.later (by rw [e]) (by rw [e]) (by rw [e]) hn
  · rw [e]; exact hi
  · rw [hph, e]; exact ho

/-- A wait of Receive keeps the invariant where what follows its level does; its expiry ends READ. -/
theorem waitOrTimeout_inv {p : RxPos} {m : Nat} {v : Level} {f : State → State} (h : NodeInv s)
    (hp : s.phase = .receiving p m) (hf : ∀ a, s.now ≤ a → NodeInv (f (advanceTo a s))) :
    NodeInv (waitOrTimeout v f s) := by
  rcases waitOrTimeout_cases v f s with ⟨a, ha, e⟩ | ⟨-, e⟩ <;> rw [e]
  · exact hf a (waitUntil_found ha).1
  · exact .endCommand 0 (h.flags.of_eq rfl rfl rfl rfl rfl)
      (h.past.later (t := advanceTo (s.now + s.cfg.tTimeout) s) rfl rfl rfl (Nat.le_add_right _ _)).lowsPast (h.out_of hp)
      (by decide)

theorem phaseOk_receiving {p : RxPos} {m : Nat} (h : phaseOk s (.receiving p m)) : m ≤ 32 := by
  cases p with
  | seekLow | judge => exact h.1
  | seekRise | seekFall | bitRise | bitFall => exact h.1

/-- A discard inside Receive keeps the invariant. -/
theorem NodeInv.discardFrame {p : RxPos} {m a : Nat} {r : Discard} (h : NodeInv s) (hp : s.phase = .receiving p m)
    (ha : s.now ≤ a) : NodeInv (discardFrame r (advanceTo a s)) := by
  rw [discardFrame_receiving (s := advanceTo a s) r hp]
  exact h.receive hp rfl ha ⟨phaseOk_receiving (h.phaseOk_of hp), rfl⟩ (Nat.zero_le _)

theorem bitFall_inv {i tRise m : Nat} {acc : Byte} (h : NodeInv s) (hp : s.phase = .receiving (.bitFall i acc tRise) m) :
    NodeInv (rxBitFall i acc tRise m s) := by
  obtain ⟨hm, hfb, hi, -⟩ := h.phaseOk_of hp
  have hm : m ≤ 32 := hm
  rcases rxBitFall_cases i acc tRise m s with ⟨a, ha, e⟩ | ⟨-, e⟩ <;> rw [e]
  · have hnow := (waitUntil_found ha).1
    cases i with
    | succ i => exact h.receive hp rfl hnow ⟨hm, hfb, show i < 8 by omega⟩ h.frameLength
    | zero =>
      have hlen (b : Byte) : (s.fb ++ [b]).length = s.fb.length + 1 := by simp
      rcases rxByteDone_cases (shiftIn acc (bitOf s.cfg (a - tRise))) m (advanceTo a s) with ⟨hlt, e⟩ | ⟨-, e⟩ <;>
        rw [rxBitDone, e]
      · have hlt : s.fb.length + 1 < m + 2 := hlt
        exact h.receive hp rfl hnow ⟨hm, by simpa using hlt, by decide⟩ (by simp; omega)
      · exact h.receive hp rfl hnow ⟨hm, by simp; omega⟩ (by simp; omega)
  · exact h.receive hp rfl (Nat.le_add_right _ _) ⟨hm, Nat.le_of_lt hfb⟩ h.frameLength

theorem frame_inv {b : Byte} {m : Nat} (h : NodeInv s) (hp : s.phase = .receiving .judge m)
    (he : exec (decodeHdr b) s = .next t) : NodeInv t := by
  have ho : s.out = .released := h.out_of hp
  have hi := h.initialized_of hp (by simp)
  rcases decodeHdr_cases b with ⟨-, e⟩ | ⟨-, e⟩ <;> rw [e] at he
  · rcases execFrameRdreq_cases he with ⟨r, -, rfl⟩ | ⟨-, rfl⟩
    · exact h.discardFrame hp (Nat.le_refl _)
    · have hf := h.flags.turnGrant hi
      rw [turnGrant_eq] at hf ⊢
      exact .returnOk _ (hf.of_eq rfl rfl rfl rfl rfl) h.lowsPast ho
  · rcases execFrameData_cases he with ⟨r, -, rfl⟩ | ⟨-, rfl⟩
    · exact h.discardFrame hp (Nat.le_refl _)
    · exact .returnOk _ (h.flags.of_eq rfl rfl rfl rfl rfl) h.lowsPast ho

/-! ## Steps -/

theorem now_le_startTick (s : State) : s.now ≤ startTick s := by
  unfold startTick
  split
  · exact Nat.le_max_left _ _
  · exact Nat.le_refl _

/-- Between commands only the clock and what the invariant does not speak of changes. -/
theorem NodeInv.ready (h : NodeInv s) (hp : s.phase = .ready)
    (e : t = { s with now := t.now, cmd := t.cmd, txbuf := t.txbuf, setupOk := t.setupOk, inputs := t.inputs })
    (hn : s.now ≤ t.now) : NodeInv t := by
  have ho := h.out_of hp
  have hph : t.phase = .ready := by rw [e]; exact hp
  refine .of_parts ?_ ?_ (fun hne => absurd hph hne) ?_ (hph ▸ trivial) ?_
  · rw [e]; exact h.flags.of_eq rfl rfl rfl rfl rfl
  · exact h.past.later (by rw [e]) (by rw [e]) (by rw [e]) hn
  · rw [hph, e]; exact ho
  · rw [e]; exact h.frameLength

theorem moves_inv (hm : Moves s t) (h : NodeInv s) : NodeInv t := by
  cases hm with
  | idle hp => exact h.ready hp rfl (Nat.le_succ _)
  | wait n rest hp => exact h.ready hp rfl (Nat.le_add_right _ _)
  | writeTx i v rest hp | pinSetup ok rest hp => exact h.ready hp rfl (Nat.le_refl _)
  | command w rest i t hp _ hd he =>
    exact exec_command_inv hd (h.ready (t := accept w rest s) hp rfl (now_le_startTick s)) hp he
  | opening p u hp he => exact opening_inv h hp he
  | transmitting p u hp he => exact transmitting_inv h hp he
  | seekLow m hp =>
    obtain ⟨hle, hfb⟩ := h.phaseOk_of hp
    exact waitOrTimeout_inv h hp fun a ha => h.receive hp rfl ha ⟨hle, hfb, Nat.le_refl _⟩ h.frameLength
  | seekRise tLow m hp =>
    obtain ⟨hle, hfb, -⟩ := h.phaseOk_of hp
    refine waitOrTimeout_inv h hp fun a ha => ?_
    split
    · exact h.receive hp rfl ha ⟨hle, hfb, Nat.le_refl _⟩ h.frameLength
    · exact h.discardFrame hp ha
  | seekFall tRise m hp =>
    obtain ⟨hle, hfb, -⟩ := h.phaseOk_of hp
    refine waitOrTimeout_inv h hp fun a ha => ?_
    split
    · exact h.receive hp rfl ha ⟨hle, by simp, by decide⟩ (Nat.zero_le _)
    · exact h.discardFrame hp ha
  | bitRise i acc m hp =>
    obtain ⟨hle, hfb, hi⟩ := h.phaseOk_of hp
    exact waitOrTimeout_inv h hp fun a ha => h.receive hp rfl ha ⟨hle, hfb, hi, Nat.le_refl _⟩ h.frameLength
  | bitFall i acc tRise m hp => exact bitFall_inv h hp
  | noBytes m hp _ => exact h.discardFrame hp (Nat.le_refl _)
  | frame m b rest t hp _ he => exact frame_inv h hp he

/-! ## Hardware reset -/

theorem hardReset_inv (h : LowsPast s) : NodeInv (hardReset s) :=
  .of_parts ⟨by simp, by simp, by simp, by simp⟩ ⟨by simp, by simp, h⟩ (fun hp => absurd rfl hp) rfl trivial (Nat.zero_le _)

/-- What is left of the record after a reset ends at its tick. -/
theorem clipSpans_end {r : Nat} {l : List Span} {sp : Span} (h : sp ∈ clipSpans r l) : sp.start + sp.len ≤ r := by
  induction l with
  | nil => simp [clipSpans] at h
  | cons a l ih =>
    simp only [clipSpans] at h
    split at h
    · rcases List.mem_cons.mp h with rfl | h
      · simp only; omega
      · exact ih h
    · exact ih h

theorem step_inv (h : NodeInv s) (hs : step s = .next t) : NodeInv t := by
  rcases step_eq_next_cases hs with
    ⟨-, hu⟩ | ⟨r, rest, -, -, rfl⟩ | ⟨r, rest, u, -, -, hu, ⟨-, rfl⟩ | ⟨-, rfl⟩⟩
  · exact moves_inv (stepCore_moves hu) h
  · exact hardReset_inv h.lowsPast
  · exact hardReset_inv fun sp hsp => clipSpans_end hsp
  · exact moves_inv (stepCore_moves hu) h

end Sys2Proof.Machine

namespace Sys2Proof

/-- Settles O32: every move of the sequencer keeps the invariant, and so does a hardware reset before or during one. -/
theorem stepKeepsTheInvariant : Obligations.StepKeepsTheInvariant :=
  fun _ _ h hs => Machine.step_inv h hs

/-- Settles O33: right after reset the flags are 0, the node is `Ready` and both records are empty. -/
theorem resetHasTheInvariant : Obligations.ResetHasTheInvariant := by
  intro c
  constructor <;> simp [Machine.State.resetOf, Machine.phaseOk, Machine.outputOf]

/-- Settles O34: each value stands in the table of the reset state. -/
theorem resetValues : Obligations.ResetValues :=
  fun _ => ⟨rfl, rfl, rfl, rfl, rfl, rfl, rfl, rfl, rfl⟩

end Sys2Proof
end

