-- ==== Sys2Proof/Proofs/Sequencer.lean ====
section
/-! SUPPORT and PROOF. What a step runs in each phase (spec/10_state.md R29, R30), what the outside world does between
commands, and that no instruction and no step is fatal (spec/60_exceptions.md R194). -/

namespace Sys2Proof.Machine

variable {s : State}

theorem step_plain (h : Claims.plain s) : step s = stepCore s := step_eq_stepCore h.1 h.2

/-! ## What a step runs -/

/-- An instruction that is no symbol is the whole step. -/
theorem stepCore_run {i : Instr} {u : State} (hf : fetch s = .run i u) (hi : isSymbol i = false) :
    stepCore s = exec i u := by
  simp only [stepCore, hf]
  exact onNext_same _ _ fun t _ => by rw [settle, hi]; rfl

/-- After a symbol the position moves on. -/
theorem stepCore_symbol {i : Instr} {u : State} (hf : fetch s = .run i u) (hi : isSymbol i = true) :
    stepCore s = onNext afterSymbol (exec i u) := by
  have hsettle : settle i = afterSymbol := funext fun t => by rw [settle, hi]; rfl
  simp only [stepCore, hf, hsettle]

theorem stepCore_move {u : State} (hf : fetch s = .move u) : stepCore s = .next u := by
  simp only [stepCore, hf]

theorem fetch_ready (hp : s.phase = .ready) : fetch s = fetchReady s := by simp only [fetch, hp]

theorem fetch_opening {p : PreamblePos} (hp : s.phase = .opening p) : fetch s = .run (preambleSymbol p) s := by
  simp only [fetch, hp]

theorem fetch_transmitting {p : TxPos} (hp : s.phase = .transmitting p) : fetch s = .run (txSymbol s.fb p) s := by
  simp only [fetch, hp]

theorem fetch_receiving {p : RxPos} {m : Nat} (hp : s.phase = .receiving p m) : fetch s = fetchReceive p m s := by
  simp only [fetch, hp]

/-- The command word `w` is accepted where it decodes (spec/10_state.md R35). -/
theorem fetch_issue {w : Word} {rest : List Input} {i : Instr} (hp : s.phase = .ready) (hi : s.inputs = .issue w :: rest)
    (hd : decodeCmd w = .ok i) : fetch s = .run i (accept w rest s) := by
  simp only [fetch_ready hp, fetchReady, hi, hd]

theorem fetch_reserved {w : Word} {rest : List Input} {e : DecodeError} (hp : s.phase = .ready)
    (hi : s.inputs = .issue w :: rest) (hd : decodeCmd w = .error e) : fetch s = .reject .reservedCommand := by
  simp only [fetch_ready hp, fetchReady, hi, hd]

theorem fetch_judge {m : Nat} {h : Byte} {rest : List Byte} (hp : s.phase = .receiving .judge m) (hf : s.fb = h :: rest) :
    fetch s = .run (decodeHdr h) s := by
  simp only [fetch_receiving hp, fetchReceive, rxJudge, hf]

/-! ## Nothing is fatal -/

/-- Every well-formed instruction answers a next state: each test of a command and each check of a frame has an answer on
both sides (spec/60_exceptions.md R194). -/
theorem exec_wf_next {i : Instr} (s : State) (h : i.wf = true) : ∃ t, exec i s = .next t := by
  cases i with
  | cmdInit => simp only [exec, execCmdInit]; split <;> exact ⟨_, rfl⟩
  | cmdOpen mode => simp only [exec, execCmdOpen]; (repeat' split) <;> exact ⟨_, rfl⟩
  | cmdClose => simp only [exec, execCmdClose]; (repeat' split) <;> exact ⟨_, rfl⟩
  | cmdRead maxLen => simp only [exec, execCmdRead]; split <;> exact ⟨_, rfl⟩
  | cmdWrite addr dir len =>
    have hl : ¬ 32 < len.toNat := Nat.not_lt.mpr (of_decide_eq_true h)
    simp only [exec, execCmdWrite, if_neg hl]
    (repeat' split) <;> exact ⟨_, rfl⟩
  | symSelect | symStart | symBit0 | symBit1 | symStop => exact ⟨_, exec_symbol s rfl⟩
  | frameRdreq a => simp only [exec, execFrameRdreq]; split <;> exact ⟨_, rfl⟩
  | frameData a => simp only [exec, execFrameData]; split <;> exact ⟨_, rfl⟩

/-- The sequencer rejects nothing but a word that does not decode, and runs only well-formed instructions. -/
theorem stepCore_next (hin : ∀ w rest, s.inputs = .issue w :: rest → ∃ i, decodeCmd w = .ok i) :
    ∃ t, stepCore s = .next t := by
  have symbol {i : Instr} (hf : fetch s = .run i s) (hi : isSymbol i = true) : ∃ t, stepCore s = .next t := by
    rw [stepCore_symbol hf hi, exec_symbol s hi]
    exact ⟨_, rfl⟩
  cases hp : s.phase with
  | ready =>
    rcases hi : s.inputs with _ | ⟨input, rest⟩
    · simp only [stepCore, fetch_ready hp, fetchReady, hi]
      exact ⟨_, rfl⟩
    · cases input with
      | wait | writeTx | pinSetup =>
        simp only [stepCore, fetch_ready hp, fetchReady, hi]
        exact ⟨_, rfl⟩
      | issue w =>
        obtain ⟨i, hd⟩ := hin w rest hi
        rw [stepCore_run (fetch_issue hp hi hd) (decodeCmd_not_symbol hd)]
        exact exec_wf_next _ (encodeOfDecode (.cmd w) i hd).1
  | opening p => exact symbol (fetch_opening hp) (preambleSymbol_isSymbol p)
  | transmitting p => exact symbol (fetch_transmitting hp) (txSymbol_isSymbol s.fb p)
  | receiving p m =>
    cases p with
    | seekLow | seekRise | seekFall | bitRise | bitFall => exact ⟨_, stepCore_move (fetch_receiving hp)⟩
    | judge =>
      rcases hf : s.fb with _ | ⟨h, rest⟩
      · exact ⟨_, stepCore_noBytes hp hf⟩
      · rw [stepCore_run (fetch_judge hp hf) (decodeHdr_not_symbol h)]
        exact exec_wf_next s (encode_decodeHdr h).1

/-- At a legal configuration a hardware reset only adds a next state of its own (spec/70_reset_and_hazards.md R210). -/
theorem step_next (hc : legalConfig s.cfg) (h : ∃ t, stepCore s = .next t) : ∃ t, step s = .next t := by
  obtain ⟨t, ht⟩ := h
  unfold step
  rw [if_pos hc]
  split
  · exact ⟨t, ht⟩
  · split
    · exact ⟨_, rfl⟩
    · rw [ht]; exact ⟨_, rfl⟩

end Sys2Proof.Machine

namespace Sys2Proof

open Machine

/-- Settles O31: instruction by instruction, and phase by phase. -/
theorem nothingIsFatal : Obligations.NothingIsFatal :=
  ⟨fun _ s h => exec_wf_next s h, fun _ hc hin => step_next hc (stepCore_next hin)⟩

/-- Settles O29: the sequencer's fetch of each phase, and what it adds after a symbol. -/
theorem stepRunsTheDecodedInstruction : Obligations.StepRunsTheDecodedInstruction := by
  intro s hs
  rw [step_plain hs]
  refine ⟨?command, ?reserved, ?opening, ?transmitting, ?frame⟩
  case command =>
    intro w rest i hp hi hd
    rw [stepCore_run (fetch_issue hp hi hd) (decodeCmd_not_symbol hd), accept, startTick]
    cases s.endTick <;> rfl
  case reserved =>
    intro w rest e hp hi hd
    simp only [stepCore, fetch_reserved hp hi hd]
  case opening => exact fun p hp => stepCore_symbol (fetch_opening hp) (preambleSymbol_isSymbol p)
  case transmitting => exact fun p hp => stepCore_symbol (fetch_transmitting hp) (txSymbol_isSymbol s.fb p)
  case frame => exact fun m h rest hp hf => stepCore_run (fetch_judge hp hf) (decodeHdr_not_symbol h)

/-- Settles O30: in `Ready` each input is one move of the sequencer, and a byte written to `TXBUF` is one byte of the
buffer. -/
theorem inputsBetweenCommands : Obligations.InputsBetweenCommands := by
  intro s hs hp
  have move {u : State} (hf : fetchReady s = .move u) : step s = .next u := by
    rw [step_plain hs, stepCore_move (by rw [fetch_ready hp, hf])]
  refine ⟨?idle, ?wait, ?writeTx, ?pinSetup⟩
  case idle => exact fun hi => move (by simp only [fetchReady, hi])
  case wait => exact fun n rest hi => move (by simp only [fetchReady, hi])
  case writeTx =>
    intro i v rest hi
    refine ⟨s.txbuf.set i v, move (by simp only [fetchReady, hi]), fun j => ?_⟩
    simp only [Fin.getElem_fin, Vector.getElem_set, Fin.ext_iff, eq_comm]
  case pinSetup => exact fun b rest hi => move (by simp only [fetchReady, hi])

end Sys2Proof
end

