-- ==== Sys2Proof/Proofs/Commands.lean ====
section
/-! SUPPORT and PROOF. The host commands in the tick in which they are accepted (spec/43_driver_commands.md): outcomes as
equations, what moves a node through its lifecycle (R171), and what a command ignores (spec/10_state.md R26;
spec/30_encoding.md R99, R100). -/

namespace Sys2Proof.Machine

theorem returnOk_eq_ended (n : Nat) (s : State) : returnOk n s = Claims.ended (statusWord .ok n) s := rfl

variable {s : State}

theorem flagsInitOk_eq (s : State) :
    flagsInitOk s =
      { s with
        initialized := true, busy := false, preambleSent := false, writeEnabled := decide (s.cfg.role = .master) } := by
  cases hr : s.cfg.role <;> simp [flagsInitOk, hr]

@[simp] theorem beginTransmit_initialized (h : Byte) (p : List Byte) (s : State) :
    (beginTransmit h p s).initialized = s.initialized := by
  rcases beginTransmit_cases h p s with ⟨-, -, e⟩ | ⟨-, e⟩ <;> simp [e]

@[simp] theorem beginTransmit_busy (h : Byte) (p : List Byte) (s : State) :
    (beginTransmit h p s).busy = s.busy := by
  rcases beginTransmit_cases h p s with ⟨-, -, e⟩ | ⟨-, e⟩ <;> simp [e]

/-! ## Commands by the tests they pass -/

theorem execCmdInit_ok (h : s.setupOk = true) : execCmdInit s = .next (returnOk 0 (flagsInitOk (releaseHigh s))) :=
  if_pos h

theorem execCmdInit_failed (h : s.setupOk = false) :
    execCmdInit s = .next (raiseStatus .notReady (flagsInitFailed (releaseHigh s))) :=
  if_neg (by simp [h])

theorem execCmdClose_master (hi : s.initialized = true) (hm : s.cfg.role = .master) :
    execCmdClose s = .next (returnOk 0 (clearBusy (clearPreamble (releaseHigh s)))) := by
  simp [execCmdClose, hi, hm]

theorem execCmdClose_slave (hi : s.initialized = true) (hs : s.cfg.role = .slave) :
    execCmdClose s = .next (returnOk 0 (clearBusy s)) := by
  simp [execCmdClose, hi, hs]

theorem execCmdWrite_noTurn {len : Byte} (addr : Addr) (dir : BitVec 1) (hl : len.toNat ≤ 32)
    (hi : s.initialized = true) (hs : s.cfg.role = .slave) (hw : s.writeEnabled = false) :
    execCmdWrite addr dir len s = .next (raiseStatus .writeNotPermitted s) := by
  simp [execCmdWrite, Nat.not_lt.mpr hl, hi, hs, hw]

theorem execCmdWrite_tooLong {len : Byte} (addr : Addr) (dir : BitVec 1) (hl : 32 < len.toNat) :
    execCmdWrite addr dir len s = .refused .reservedCommand := if_pos hl

/-! ## A Master and its turn -/

/-- The turn of a node is set to `b`. -/
def withTurn (b : Bool) (s : State) : State := { s with writeEnabled := b }

theorem turnGrant_master (hm : s.cfg.role = .master) : turnGrant s = s := by
  simp only [turnGrant, hm]

theorem beginTransmit_withTurn (h : Byte) (p : List Byte) (b : Bool) (s : State) :
    beginTransmit h p (withTurn b s) = withTurn b (beginTransmit h p s) := by
  have hcfg : (withTurn b s).cfg = s.cfg := rfl
  have hsent : (withTurn b s).preambleSent = s.preambleSent := rfl
  simp only [beginTransmit, hcfg, hsent]
  split <;> rfl

/-- On a Master only INIT writes the turn, and nothing reads it (spec/10_state.md R26). -/
theorem exec_withTurn {i : Instr} (b : Bool) (hm : s.cfg.role = .master) (hi : i ≠ .cmdInit) :
    exec i (withTurn b s) = onNext (withTurn b) (exec i s) := by
  have hm' : (withTurn b s).cfg.role = .master := hm
  have hinit : (withTurn b s).initialized = s.initialized := rfl
  cases i with
  | cmdInit => exact absurd rfl hi
  | cmdOpen mode =>
    have hbusy : (withTurn b s).busy = s.busy := rfl
    simp only [exec, execCmdOpen, hm, hm', hinit, hbusy]
    split_ifs <;> rfl
  | cmdClose =>
    simp only [exec, execCmdClose, hm, hm', hinit]
    split_ifs <;> rfl
  | cmdRead maxLen =>
    simp only [exec, execCmdRead, hinit]
    split_ifs <;> rfl
  | cmdWrite addr dir len =>
    simp only [exec, execCmdWrite, hm, hm', hinit]
    split_ifs
    · rfl
    · rfl
    · exact congrArg Host.Outcome.next (beginTransmit_withTurn (txHeader s.cfg addr dir) (txPayload s len) b s)
  | symSelect | symStart | symBit0 | symBit1 | symStop => rw [exec_symbol s rfl, exec_symbol (withTurn b s) rfl]; rfl
  | frameRdreq a =>
    have hr : discardReason a (withTurn b s) = discardReason a s := rfl
    simp only [exec, execFrameRdreq, hr, turnGrant_master hm, turnGrant_master hm']
    cases discardReason a s <;> rfl
  | frameData a =>
    have hr : discardReason a (withTurn b s) = discardReason a s := rfl
    simp only [exec, execFrameData, hr]
    cases discardReason a s <;> rfl

/-! ## The lifecycle -/

/-- What each instruction may do to the lifecycle (spec/43_driver_commands.md R171). -/
theorem exec_lifecycle {i : Instr} {t : State} (h : exec i s = .next t) :
    (t.initialized ≠ s.initialized → i = .cmdInit) ∧
    (s.busy = false → t.busy = true → i = .cmdOpen 0 ∧ lifecycle s = .idle) ∧
    (s.busy = true → t.busy = false → i = .cmdInit ∨ i = .cmdClose) := by
  have kept (hi : t.initialized = s.initialized) (hb : t.busy = s.busy) :
      (t.initialized ≠ s.initialized → i = .cmdInit) ∧
      (s.busy = false → t.busy = true → i = .cmdOpen 0 ∧ lifecycle s = .idle) ∧
      (s.busy = true → t.busy = false → i = .cmdInit ∨ i = .cmdClose) := by
    simp +contextual [hi, hb]
  cases i with
  | cmdInit =>
    rcases execCmdInit_cases h with ⟨-, rfl⟩ | ⟨-, rfl⟩ <;> simp [flagsInitOk, flagsInitFailed]
  | cmdOpen mode =>
    rcases execCmdOpen_cases h with
      ⟨-, rfl⟩ | ⟨-, -, rfl⟩ | ⟨-, -, -, rfl⟩ | ⟨hi, hb, rfl, -, rfl⟩ | ⟨hi, hb, rfl, -, rfl⟩
    · exact kept rfl rfl
    · exact kept rfl rfl
    · exact kept rfl rfl
    · simp [lifecycle, hi, hb]
    · simp [lifecycle, hi, hb]
  | cmdClose =>
    rcases execCmdClose_cases h with ⟨-, rfl⟩ | ⟨-, -, rfl⟩ | ⟨-, -, rfl⟩
    · exact kept rfl rfl
    · simp
    · simp
  | cmdRead maxLen => rcases execCmdRead_cases h with ⟨-, rfl⟩ | ⟨-, rfl⟩ <;> exact kept rfl rfl
  | cmdWrite addr dir len =>
    obtain ⟨-, h⟩ := execCmdWrite_cases h
    rcases h with ⟨-, rfl⟩ | ⟨-, -, -, rfl⟩ | ⟨-, -, rfl⟩ | ⟨-, -, -, rfl⟩
    · exact kept rfl rfl
    · exact kept rfl rfl
    · exact kept (beginTransmit_initialized _ _ s) (beginTransmit_busy _ _ s)
    · exact kept (beginTransmit_initialized _ _ _) (beginTransmit_busy _ _ _)
  | frameRdreq a =>
    rcases execFrameRdreq_cases h with ⟨r, -, rfl⟩ | ⟨-, rfl⟩
    · exact kept rfl rfl
    · rw [turnGrant_eq] at kept ⊢; exact kept rfl rfl
  | frameData a => rcases execFrameData_cases h with ⟨r, -, rfl⟩ | ⟨-, rfl⟩ <;> exact kept rfl rfl
  | symSelect | symStart | symBit0 | symBit1 | symStop => rw [exec_symbol s rfl] at h; cases h; exact kept rfl rfl

end Sys2Proof.Machine

namespace Sys2Proof

open Machine

/-- Settles O1: both outcomes of pin setup, each an equation of the flags it writes. -/
theorem initFollowsPinSetup : Obligations.InitFollowsPinSetup := by
  refine fun s => ⟨fun h => (execCmdInit_ok h).trans ?_, fun h => execCmdInit_failed h⟩
  rw [flagsInitOk_eq]
  rfl

/-- Settles O4: the three outcomes of CLOSE. -/
theorem closeEndsTheSession : Obligations.CloseEndsTheSession :=
  fun _ => ⟨execCmdClose_uninitialized, execCmdClose_master, execCmdClose_slave⟩

/-- Settles O7: the two tests of WRITE that stop it. -/
theorem writeNeedsTheTurn : Obligations.WriteNeedsTheTurn :=
  fun _ addr dir _ => ⟨execCmdWrite_noTurn addr dir, execCmdWrite_tooLong addr dir⟩

/-- Settles O38: the lifecycle law of every instruction. -/
theorem lifecycleTransitions : Obligations.LifecycleTransitions :=
  fun _ _ _ h => exec_lifecycle h

/-- Settles O39: INIT overwrites a Master's turn, and every other instruction carries it along. -/
theorem masterIgnoresTheTurn : Obligations.MasterIgnoresTheTurn := by
  refine fun i s b hm => ⟨?_, exec_withTurn b hm⟩
  rintro rfl
  simp only [exec, execCmdInit]
  split <;> rfl

/-- Settles O40: a Slave's header does not depend on the operands, and the limit of READ is a minimum with 32. -/
theorem ignoredOperands : Obligations.IgnoredOperands := by
  refine ⟨fun s a a' d d' l hs => ?_, fun s m hm => ?_⟩
  · have hheader : txHeader s.cfg a d = txHeader s.cfg a' d' := by simp only [txHeader, hs]
    simp only [exec, execCmdWrite, hheader]
  · have hlimit : rxLimit m = rxLimit 32 := Nat.min_eq_right hm
    simp only [exec, execCmdRead, hlimit]

end Sys2Proof
end

