-- ==== Sys2Proof/Proofs/Waveform.lean ====
section
/-! SUPPORT and PROOF. The symbols a node puts on the line (spec/42_frame_transport.md R135 to R139; spec/30_encoding.md R84,
R86): how long a frame lasts, and the runs of OPEN and WRITE, one symbol a step. -/

namespace Sys2Proof.Machine

/-! ## Durations -/

theorem waveTicks_bitSymbols (c : NodeConfig) (b : Byte) (i : Nat) :
    waveTicks c (bitSymbols b i) = c.bitPeriod * (2 * i + onesBelow b i) := by
  induction i with
  | zero => simp [bitSymbols, waveTicks, onesBelow]
  | succ i ih =>
    rw [bitSymbols, waveTicks, ih, onesBelow]
    cases b.getLsbD i <;> simp [bitSymbol, symbolTicks] <;> ring

theorem waveTicks_byteSymbols (c : NodeConfig) (b : Byte) :
    waveTicks c (byteSymbols b) = c.bitPeriod * (16 + popcount b) := waveTicks_bitSymbols c b 8

theorem waveTicks_flatMap (c : NodeConfig) (fb : List Byte) :
    waveTicks c (fb.flatMap byteSymbols) = c.bitPeriod * (16 * fb.length + onesOf fb) := by
  induction fb with
  | nil => simp [waveTicks, onesOf]
  | cons b fb ih =>
    rw [List.flatMap_cons, waveTicks_append, ih, waveTicks_byteSymbols, onesOf, onesOf, List.map_cons, List.sum_cons,
      List.length_cons]
    ring

/-! ## The checksum -/

theorem checksum_toNat (l : List Byte) : (checksum l).toNat = (l.map BitVec.toNat).sum % 256 := by
  induction l with
  | nil => rfl
  | cons b l ih =>
    rw [checksum, BitVec.toNat_add, ih, List.map_cons, List.sum_cons]
    omega

/-! ## Runs of one and of two steps -/

theorem run_one {s t : State} (h : step s = .next t) : run 1 s = .next t := run_succ 0 h

theorem run_two {s t u : State} (h1 : step s = .next t) (h2 : step t = .next u) : run 2 s = .next u :=
  (run_succ 1 h1).trans (run_one h2)

/-! ## One symbol a step -/

/-- The node has put the symbol `i` on the line. -/
def afterPut (i : Instr) (s : State) : State :=
  { s with out := outAfter i, now := s.now + symbolTicks s.cfg i, lows := s.lows ++ symbolLows s.cfg s.now i }

variable {s : State}

theorem exec_symbol_afterPut {i : Instr} (s : State) (h : isSymbol i = true) : exec i s = .next (afterPut i s) :=
  exec_symbol s h

theorem step_opening {p : PreamblePos} (hs : Claims.plain s) (hp : s.phase = .opening p) :
    step s = .next (afterSymbol (afterPut (preambleSymbol p) s)) := by
  rw [step_plain hs, stepCore_symbol (fetch_opening hp) (preambleSymbol_isSymbol p),
    exec_symbol_afterPut s (preambleSymbol_isSymbol p), onNext_next]

theorem step_transmitting {p : TxPos} (hs : Claims.plain s) (hp : s.phase = .transmitting p) :
    step s = .next (afterSymbol (afterPut (txSymbol s.fb p) s)) := by
  rw [step_plain hs, stepCore_symbol (fetch_transmitting hp) (txSymbol_isSymbol s.fb p),
    exec_symbol_afterPut s (txSymbol_isSymbol s.fb p), onNext_next]

/-! ## A Master's OPEN -/

theorem execCmdOpen_alreadyOpen (mode : Byte) (hi : s.initialized = true) (hb : s.busy = true) :
    execCmdOpen mode s = .next (raiseStatus .alreadyOpen s) := by
  simp [execCmdOpen, hi, hb]

theorem execCmdOpen_otherMode {mode : Byte} (hi : s.initialized = true) (hb : s.busy = false) (hm : mode ≠ 0) :
    execCmdOpen mode s = .next (raiseStatus .unsupportedMode s) := by
  simp only [execCmdOpen, hi, hb, if_pos hm]
  rfl

theorem execCmdOpen_slave (hi : s.initialized = true) (hb : s.busy = false) (hs : s.cfg.role = .slave) :
    execCmdOpen 0 s = .next (returnOk 0 (setBusy s)) := by
  simp [execCmdOpen, hi, hb, hs]

theorem execCmdOpen_master (hi : s.initialized = true) (hb : s.busy = false) (hm : s.cfg.role = .master) :
    execCmdOpen 0 s = .next { setBusy s with phase := .opening .select } := by
  simp [execCmdOpen, hi, hb, hm]

/-- The run of a Master's OPEN: `SELECT`, `START`, and `preamble_sent` is set (spec/43_driver_commands.md R162). -/
theorem run_opening (hs : Claims.plain s) (hp : s.phase = .opening .select) :
    run 2 s = .next (returnOk 0 (setPreamble (afterPut .symStart
      { afterPut .symSelect s with phase := .opening .start }))) := by
  have select : step s = .next { afterPut .symSelect s with phase := .opening .start } := by
    rw [step_opening hs hp]
    simp only [afterSymbol, afterPut, hp, preambleSymbol]
  have hs' : Claims.plain { afterPut .symSelect s with phase := .opening .start } := hs
  exact run_two select (step_opening hs' rfl)

/-! ## The run of a WRITE -/

/-- The symbols of Transmit from a position on (spec/42_frame_transport.md R138). -/
def txRest (fb : List Byte) : TxPos → List Instr
  | .preamble .select => preambleSymbols ++ frameSymbols fb
  | .preamble .start => .symStart :: frameSymbols fb
  | .bit k i => bitSymbols (fb.getD k 0) (i + 1) ++ frameSymbols (fb.drop (k + 1))
  | .stop => [.symStop]

theorem frameSymbols_cons (b : Byte) (fb : List Byte) : frameSymbols (b :: fb) = byteSymbols b ++ frameSymbols fb := by
  simp [frameSymbols]

/-- From the first bit of a byte on, a frame's symbols are those of its bytes from there. -/
theorem txRest_bit_seven {fb : List Byte} {k : Nat} (hk : k < fb.length) :
    txRest fb (.bit k 7) = frameSymbols (fb.drop k) := by
  rw [List.drop_eq_getElem_cons hk, frameSymbols_cons, txRest, List.getD_eq_getElem _ _ hk, byteSymbols]

/-- The symbol of a position, and then the symbols from the next position on. -/
theorem txRest_some {fb : List Byte} {p q : TxPos} (hne : fb ≠ []) (h : txNext fb p = some q) :
    txRest fb p = txSymbol fb p :: txRest fb q := by
  cases p with
  | preamble p =>
    cases p with
    | select => cases h; rfl
    | start => cases h; rw [txRest_bit_seven (List.length_pos_of_ne_nil hne)]; rfl
  | bit k i =>
    cases i with
    | succ i => cases h; rfl
    | zero =>
      simp only [txNext] at h
      split at h
      · next hk => cases h; rw [txRest_bit_seven hk]; rfl
      · next hk =>
        cases h
        rw [txRest, List.drop_eq_nil_of_le (Nat.le_of_not_lt hk)]
        rfl
  | stop => cases h

/-- Transmit sends the symbols from its position on, one a step, and WRITE ends with `Ok`. -/
theorem run_transmitting {p : TxPos} (hs : Claims.plain s) (hp : s.phase = .transmitting p) (hne : s.fb ≠ []) :
    run (txRest s.fb p).length s = .next (Claims.ended (statusWord .ok (s.fb.length - 2))
      { s with
        out := .released
        now := s.now + waveTicks s.cfg (txRest s.fb p)
        lows := s.lows ++ waveLows s.cfg s.now (txRest s.fb p) }) := by
  generalize hrest : txRest s.fb p = rest
  induction rest generalizing p s with
  | nil =>
    cases hq : txNext s.fb p with
    | none => cases txNext_none hq; cases hrest
    | some q => rw [txRest_some hne hq] at hrest; cases hrest
  | cons i rest ih =>
    have hstep := step_transmitting hs hp
    rw [List.length_cons, run_succ _ hstep]
    rcases afterSymbol_transmitting (s := afterPut (txSymbol s.fb p) s) hp with ⟨q, hq, e⟩ | ⟨hq, e⟩ <;> rw [e]
    · rw [txRest_some hne hq] at hrest
      cases hrest
      rw [ih (p := q) (s := { afterPut (txSymbol s.fb p) s with phase := .transmitting q }) hs rfl hne rfl]
      simp only [Claims.ended, afterPut, waveTicks, waveLows, List.append_assoc, Nat.add_assoc]
    · cases txNext_none hq
      cases hrest
      simp [run_zero, returnOk_eq_ended, Claims.ended, afterPut, waveTicks, waveLows, txSymbol, outAfter]

@[simp] theorem beginTransmit_lows (h : Byte) (p : List Byte) (s : State) : (beginTransmit h p s).lows = s.lows := by
  rcases beginTransmit_cases h p s with ⟨-, -, e⟩ | ⟨-, e⟩ <;> simp [e]

@[simp] theorem beginTransmit_now (h : Byte) (p : List Byte) (s : State) : (beginTransmit h p s).now = s.now := by
  rcases beginTransmit_cases h p s with ⟨-, -, e⟩ | ⟨-, e⟩ <;> simp [e]

/-- A WRITE that is accepted takes a Slave's turn and begins to transmit. -/
theorem execCmdWrite_accepted {len : Byte} (addr : Addr) (dir : BitVec 1) (hi : s.initialized = true)
    (hl : len.toNat ≤ 32) (hw : s.cfg.role = .slave → s.writeEnabled = true) :
    execCmdWrite addr dir len s = .next (beginTransmit (txHeader s.cfg addr dir) (txPayload s len)
      (withTurn (decide (s.cfg.role = .master ∧ s.writeEnabled = true)) s)) := by
  cases hr : s.cfg.role with
  | master =>
    have hturn : withTurn (decide (Role.master = .master ∧ s.writeEnabled = true)) s = s := by
      rw [show decide (Role.master = .master ∧ s.writeEnabled = true) = s.writeEnabled by simp]
      rfl
    rw [hturn, execCmdWrite, if_neg (Nat.not_lt.mpr hl), if_neg (by simp [hi])]
    simp only [hr]
  | slave => simp [execCmdWrite, Nat.not_lt.mpr hl, hi, hr, hw hr, withTurn, takeTurn]

/-- From its first position Transmit sends what the statement of WRITE calls its symbols. -/
theorem run_beginTransmit {h : Byte} {p : List Byte} (hs : Claims.plain s) :
    run (writeSymbols s (frameBytes h p)).length (beginTransmit h p s) =
      .next (Claims.ended (statusWord .ok p.length)
        { s with
          preambleSent := decide (¬ s.cfg.role = .master) && s.preambleSent
          out := .released
          now := s.now + waveTicks s.cfg (writeSymbols s (frameBytes h p))
          lows := s.lows ++ waveLows s.cfg s.now (writeSymbols s (frameBytes h p)) }) := by
  have hne : frameBytes h p ≠ [] := by simp [frameBytes]
  have hlen : (frameBytes h p).length - 2 = p.length := by rw [frameBytes_length, Nat.add_sub_cancel]
  rcases beginTransmit_cases h p s with ⟨hm, hsent, e⟩ | ⟨hnot, e⟩
  · have hsyms : writeSymbols s (frameBytes h p) = txRest (frameBytes h p) (.bit 0 7) := by
      rw [writeSymbols, if_pos ⟨hm, hsent⟩, txRest_bit_seven (List.length_pos_of_ne_nil hne)]
      rfl
    rw [hsyms, e,
      run_transmitting (s := { clearPreamble s with fb := frameBytes h p, phase := .transmitting (.bit 0 7) }) hs rfl hne]
    simp [hlen, hm, Claims.ended, clearPreamble]
  · have hsyms : writeSymbols s (frameBytes h p) = txRest (frameBytes h p) (.preamble .select) := by
      rw [writeSymbols, if_neg hnot]
      rfl
    have hsent : (decide (¬ s.cfg.role = .master) && s.preambleSent) = s.preambleSent := by
      cases hps : s.preambleSent <;> simp_all
    rw [hsyms, e,
      run_transmitting (s := { s with fb := frameBytes h p, phase := .transmitting (.preamble .select) }) hs rfl hne, hsent]
    simp [hlen, Claims.ended]

end Sys2Proof.Machine

namespace Sys2Proof

open Machine

/-- Settles O27: byte by byte and bit by bit, 2 bit periods and one more for each 1. -/
theorem frameDuration : Obligations.FrameDuration := by
  intro c h p
  rw [frameSymbols, waveTicks_append, waveTicks_append, waveTicks_flatMap, frameBytes_length]
  simp only [preambleSymbols, waveTicks, symbolTicks]
  ring

/-- Settles O28: the sum of the values, of which no order is left. -/
theorem checksumIsTheSum : Obligations.ChecksumIsTheSum := by
  refine fun l l' => ⟨checksum_toNat l, fun hperm => BitVec.eq_of_toNat_eq ?_⟩
  rw [checksum_toNat, checksum_toNat, (hperm.map BitVec.toNat).sum_eq]

/-- Settles O9: the symbol law for `SELECT` and `START`, one after the other. -/
theorem preambleSymbols : Obligations.PreambleSymbols := by
  refine fun s => ⟨exec_symbol (i := .symSelect) s rfl, (exec_symbol (i := .symStart) s rfl).trans ?_,
    _, exec_symbol (i := .symSelect) s rfl, (exec_symbol (i := .symStart) _ rfl).trans ?_⟩
  · simp [outAfter, symbolTicks, symbolLows]
  · simp [outAfter, symbolTicks, symbolLows]
    omega

/-- Settles O11: the symbol law for `STOP`. -/
theorem stopSymbol : Obligations.StopSymbol :=
  fun s => exec_symbol (i := .symStop) s rfl

/-- Settles O3: the failures in their order, a Slave's OPEN in its tick, and the two steps of a Master's. -/
theorem openTakesTheSession : Obligations.OpenTakesTheSession := by
  intro s mode
  refine ⟨execCmdOpen_uninitialized mode, execCmdOpen_alreadyOpen mode, execCmdOpen_otherMode, execCmdOpen_slave, ?master⟩
  intro hi hb hm hs
  have hs' : Claims.plain { setBusy s with phase := .opening .select } := hs
  refine ⟨_, execCmdOpen_master hi hb hm, rfl, (run_opening hs' rfl).trans ?_⟩
  have hnow : s.now + 27 * s.cfg.bitPeriod + 3 * s.cfg.bitPeriod = s.now + 30 * s.cfg.bitPeriod := by omega
  have hstatus : statusWord .ok 0 = 0 := rfl
  simp [returnOk_eq_ended, Claims.ended, afterPut, symbolTicks, symbolLows, outAfter, setBusy, setPreamble, hnow, hstatus]

/-- Settles O8: WRITE begins to transmit, and Transmit sends the symbols of the frame. -/
theorem writeSendsOneFrame : Obligations.WriteSendsOneFrame := by
  intro s addr dir len hs hi hl hw
  refine ⟨_, execCmdWrite_accepted addr dir hi hl hw, beginTransmit_writeEnabled _ _ _, beginTransmit_lows _ _ _,
    beginTransmit_now _ _ _, ?_⟩
  rintro fb syms rfl rfl
  have hs' : Claims.plain (withTurn (decide (s.cfg.role = .master ∧ s.writeEnabled = true)) s) := hs
  refine (run_beginTransmit (h := txHeader s.cfg addr dir) (p := txPayload s len) hs').trans ?_
  rw [txPayload_length s len hl]
  cases hr : s.cfg.role <;> simp [Claims.ended, withTurn, hr, writeSymbols, txHeader, txPayload, Machine.preambleSymbols]

end Sys2Proof
end

