-- ==== Sys2Proof/Proofs/Search.lean ====
section
/-! SUPPORT and PROOF. The waits of Receive on a line whose levels are known (spec/40_line_adapter.md R115), one step each:
the start search (spec/42_frame_transport.md R143) and DecodeBit (spec/41_bit_codec.md R125 to R129). -/

namespace Sys2Proof.Claims.lineIs

open Machine

variable {s : State}

theorem not_low {a b : Nat} (h : lineIs s .high a b) : ∀ t, a ≤ t → t < b → lineAt s t ≠ .low :=
  fun t h1 h2 e => by cases (h t h1 h2).symm.trans e

theorem not_high {a b : Nat} (h : lineIs s .low a b) : ∀ t, a ≤ t → t < b → lineAt s t ≠ .high :=
  fun t h1 h2 e => by cases (h t h1 h2).symm.trans e

theorem first {v : Level} {a b : Nat} (h : lineIs s v a b) (hab : a < b) : lineAt s a = v := h a (Nat.le_refl a) hab

end Sys2Proof.Claims.lineIs

namespace Sys2Proof.Machine

open Claims

variable {s : State}

/-! ## Waits on a known line -/

/-- A high line that falls at `a`. -/
theorem waitUntil_fall {a limit : Nat} (h1 : s.now ≤ a) (h2 : a < s.now + limit) (hh : lineIs s .high s.now a)
    (hl : lineAt s a = .low) : waitUntil s .low limit = .found a :=
  waitUntil_eq_found h1 h2 hl hh.not_low

/-- A low line that rises at `a`. -/
theorem waitUntil_rise {a limit : Nat} (h1 : s.now ≤ a) (h2 : a < s.now + limit) (hl : lineIs s .low s.now a)
    (hh : lineAt s a = .high) : waitUntil s .high limit = .found a :=
  waitUntil_eq_found h1 h2 hh hl.not_high

/-! ## Steps of Receive -/

section Steps

variable {m : Nat} (hs : plain s)
include hs

/-- A step of Receive that makes a wait. -/
theorem step_wait {p : RxPos} {t : State} (hp : s.phase = .receiving p m) (h : fetchReceive p m s = .move t) :
    step s = .next t := by
  rw [step_plain hs, stepCore_move ((fetch_receiving hp).trans h)]

theorem step_seekLow (hp : s.phase = .receiving .seekLow m) : step s = .next (rxSeekLow m s) := step_wait hs hp rfl

theorem step_seekRise {tLow : Nat} (hp : s.phase = .receiving (.seekRise tLow) m) :
    step s = .next (rxSeekRise tLow m s) := step_wait hs hp rfl

theorem step_seekFall {tRise : Nat} (hp : s.phase = .receiving (.seekFall tRise) m) :
    step s = .next (rxSeekFall tRise m s) := step_wait hs hp rfl

theorem step_bitRise {i : Nat} {acc : Byte} (hp : s.phase = .receiving (.bitRise i acc) m) :
    step s = .next (rxBitRise i acc m s) := step_wait hs hp rfl

theorem step_bitFall {i tRise : Nat} {acc : Byte} (hp : s.phase = .receiving (.bitFall i acc tRise) m) :
    step s = .next (rxBitFall i acc tRise m s) := step_wait hs hp rfl

/-- The low ends at `t`, long enough or not. -/
theorem step_seekRise_found {tLow t : Nat} (hp : s.phase = .receiving (.seekRise tLow) m)
    (h : waitUntil s .high s.cfg.tTimeout = .found t) :
    step s = .next (if isSelect s.cfg (t - tLow) then { s with now := t, phase := .receiving (.seekFall t) m }
      else searchAgain .noise m { s with now := t }) := by
  rw [step_seekRise hs hp]
  split
  · next hsel => rw [rxSeekRise_select h hsel]
  · next hsel => rw [rxSeekRise_noise h hsel, discardFrame_receiving (s := advanceTo t s) .noise hp]; rfl

/-- The high ends at `t`, long enough or not. -/
theorem step_seekFall_found {tRise t : Nat} (hp : s.phase = .receiving (.seekFall tRise) m)
    (h : waitUntil s .low s.cfg.tTimeout = .found t) :
    step s = .next (if isStart s.cfg (t - tRise) then { s with now := t, fb := [], phase := .receiving (.bitRise 7 0) m }
      else searchAgain .noise m { s with now := t }) := by
  rw [step_seekFall hs hp]
  split
  · next hstart => rw [rxSeekFall_start h hstart]
  · next hstart => rw [rxSeekFall_noise h hstart, discardFrame_receiving (s := advanceTo t s) .noise hp]; rfl

end Steps

/-- The expiry of a wait bounded by `T_TIMEOUT` (spec/42_frame_transport.md R152). -/
theorem waitOrTimeout_timeout {v : Level} {f : State → State}
    (h : ∀ t, s.now ≤ t → t < s.now + s.cfg.tTimeout → lineAt s t ≠ v) :
    waitOrTimeout v f s = ended 0x06000000 { s with now := s.now + s.cfg.tTimeout } :=
  waitOrTimeout_expired (waitUntil_eq_expired h)

/-! ## The start search -/

section Search

variable {m : Nat} (hs : plain s) (hp : s.phase = .receiving .seekLow m)
include hs hp

/-- The first low is found at `a`. -/
theorem step_seekLow_fall {a : Nat} (h1 : s.now ≤ a) (h2 : a < s.now + s.cfg.tTimeout) (hh : lineIs s .high s.now a)
    (hl : lineAt s a = .low) : step s = .next { s with now := a, phase := .receiving (.seekRise a) m } := by
  rw [step_seekLow hs hp, rxSeekLow_found (waitUntil_fall h1 h2 hh hl)]

/-- The first low, from `a` up to `b`, is a select condition. -/
theorem run_select {a b : Nat} (h1 : s.now ≤ a) (h2 : a < s.now + s.cfg.tTimeout) (hh : lineIs s .high s.now a)
    (hab : a < b) (hb : b < a + s.cfg.tTimeout) (hl : lineIs s .low a b) (hbh : lineAt s b = .high)
    (hsel : isSelect s.cfg (b - a)) : run 2 s = .next { s with now := b, phase := .receiving (.seekFall b) m } := by
  have hs' : plain { s with now := a, phase := .receiving (.seekRise a) m } := hs
  refine run_two (step_seekLow_fall hs hp h1 h2 hh (hl.first hab)) ?_
  rw [step_seekRise_found hs' rfl (waitUntil_rise (Nat.le_of_lt hab) hb hl hbh), if_pos hsel]

/-- The high after it, up to `c`, is a start condition: the first byte begins. -/
theorem run_start {a b c : Nat} (h1 : s.now ≤ a) (h2 : a < s.now + s.cfg.tTimeout) (hh : lineIs s .high s.now a)
    (hab : a < b) (hb : b < a + s.cfg.tTimeout) (hl : lineIs s .low a b) (hsel : isSelect s.cfg (b - a)) (hbc : b < c)
    (hc : c < b + s.cfg.tTimeout) (hh' : lineIs s .high b c) (hcl : lineAt s c = .low) (hstart : isStart s.cfg (c - b)) :
    run 3 s = .next { s with now := c, fb := [], phase := .receiving (.bitRise 7 0) m } := by
  have hs' : plain { s with now := b, phase := .receiving (.seekFall b) m } := hs
  have hfound := step_seekFall_found hs' rfl (waitUntil_fall (Nat.le_of_lt hbc) hc hh' hcl)
  rw [run_add 2 1 (run_select hs hp h1 h2 hh hab hb hl (hh'.first hbc) hsel), run_one hfound, if_pos hstart]

end Search

/-! ## DecodeBit -/

/-- A bit decoded at `t` leads to the state that the statements call `afterBit` (spec/41_bit_codec.md R129). -/
theorem rxBitDone_eq (i : Nat) (acc : Byte) (bit : Bool) (m t : Nat) (s : State) :
    rxBitDone i acc bit m (advanceTo t s) = afterBit i acc bit m { s with now := t } := by
  cases i with
  | succ j => rfl
  | zero =>
    rcases rxByteDone_cases (shiftIn acc bit) m (advanceTo t s) with ⟨hlt, e⟩ | ⟨hge, e⟩
    · rw [rxBitDone, e, afterBit, afterByte, if_pos (show s.fb.length + 1 < m + 2 from hlt)]
      rfl
    · rw [rxBitDone, e, afterBit, afterByte, if_neg (show ¬ s.fb.length + 1 < m + 2 from Nat.not_lt.mpr hge)]
      rfl

section Bit

variable {i m a : Nat} {acc : Byte} (hs : plain s) (hp : s.phase = .receiving (.bitRise i acc) m) (h1 : s.now ≤ a)
  (h2 : a < s.now + s.cfg.tTimeout) (hl : lineIs s .low s.now a)
include hs hp h1 h2 hl

/-- Phase 1: the sync low ends at `a`. -/
theorem step_bitRise_rise (hh : lineAt s a = .high) :
    step s = .next { s with now := a, phase := .receiving (.bitFall i acc a) m } := by
  rw [step_bitRise hs hp, rxBitRise_found (waitUntil_rise h1 h2 hl hh)]

/-- Phase 2, the high phase of `d` ticks ending below `STOP_LIMIT`. -/
theorem run_bit {d : Nat} (hd : 1 ≤ d) (hh : lineIs s .high a (a + d)) (hfall : lineAt s (a + d) = .low)
    (hlim : 10 * d ≤ 24 * s.cfg.bitPeriod) :
    run 2 s = .next (afterBit i acc (bitOf s.cfg d) m { s with now := a + d }) := by
  have hs' : plain { s with now := a, phase := .receiving (.bitFall i acc a) m } := hs
  have hbound : a + d < a + stopLimit s.cfg := by unfold stopLimit; omega
  refine run_two (step_bitRise_rise hs hp h1 h2 hl (hh.first (by omega))) ?_
  have hwait := waitUntil_fall (s := { s with now := a, phase := .receiving (.bitFall i acc a) m })
    (Nat.le_add_right a d) hbound hh hfall
  rw [step_bitFall hs' rfl, rxBitFall_found hwait, Nat.add_sub_cancel_left, rxBitDone_eq]
  cases i <;> rfl

/-- Phase 2, the high phase reaching `STOP_LIMIT`. -/
theorem run_stop {d : Nat} (hh : lineIs s .high a (a + d)) (hlim : 24 * s.cfg.bitPeriod < 10 * d) :
    run 2 s = .next { s with now := a + stopLimit s.cfg, phase := .receiving .judge m } := by
  have hs' : plain { s with now := a, phase := .receiving (.bitFall i acc a) m } := hs
  have hbound : stopLimit s.cfg ≤ d := by unfold stopLimit; omega
  refine run_two (step_bitRise_rise hs hp h1 h2 hl (hh.first (by omega))) ?_
  have hwait := waitUntil_eq_expired (s := { s with now := a, phase := .receiving (.bitFall i acc a) m })
    fun t h1 h2 => hh.not_low t h1 (Nat.lt_of_lt_of_le h2 (Nat.add_le_add_left hbound a))
  rw [step_bitFall hs' rfl, rxBitFall_stop hwait]

end Bit

theorem bitOf_eq_false {c : NodeConfig} {d : Nat} (h : 10 * d ≤ 12 * c.bitPeriod) : bitOf c d = false :=
  decide_eq_false (Nat.not_lt.mpr h)

theorem bitOf_eq_true {c : NodeConfig} {d : Nat} (h : 12 * c.bitPeriod < 10 * d) : bitOf c d = true :=
  decide_eq_true h

theorem execCmdRead_initialized {maxLen : Byte} (hi : s.initialized = true) :
    execCmdRead maxLen s = .next { clearPreamble s with fb := [], phase := .receiving .seekLow (rxLimit maxLen) } :=
  if_neg (by simp [hi])

end Sys2Proof.Machine

namespace Sys2Proof

open Machine Claims

/-- Settles O16: the answers of `wait_until`, each from the law of Laws/Wait.lean and its converse. -/
theorem waitUntilFindsTheLeastTick : Obligations.WaitUntilFindsTheLeastTick := by
  refine fun s v limit => ⟨fun t => ⟨fun h => ?found, fun ⟨h1, h2, h3, hleast⟩ => ?eqFound⟩,
    fun t => ⟨fun h => waitUntil_expired h, fun ⟨ht, hnone⟩ => ht ▸ waitUntil_eq_expired hnone⟩⟩
  case found =>
    obtain ⟨h1, h2, h3, hbefore⟩ := waitUntil_found h
    exact ⟨h1, h2, h3, fun u hu _ hv => Nat.le_of_not_lt fun hlt => hbefore u hu hlt hv⟩
  case eqFound =>
    exact waitUntil_eq_found h1 h2 h3 fun u hu hlt hv =>
      absurd (hleast u hu (Nat.lt_trans hlt h2) hv) (Nat.not_le.mpr hlt)

/-- Settles O5: READ enters the start search in its tick, and its first wait expires on an idle line. -/
theorem readOfAnIdleLineTimesOut : Obligations.ReadOfAnIdleLineTimesOut := by
  refine fun s maxLen hi => ⟨_, execCmdRead_initialized hi, rfl, fun hs hline => run_one ?_⟩
  have hs' : plain { clearPreamble s with fb := [], phase := .receiving .seekLow (rxLimit maxLen) } := hs
  rw [step_seekLow hs' rfl, rxSeekLow, waitOrTimeout_timeout
    (s := { clearPreamble s with fb := [], phase := .receiving .seekLow (rxLimit maxLen) }) hline.not_low]
  rfl

/-- Settles O20: the three waits of the search, each with its expiry and its two outcomes. -/
theorem startSearch : Obligations.StartSearch := by
  intro s m a b c hs hp
  refine ⟨fun hidle => run_one ?_, fun h1 h2 hh => ⟨fun hlow => ?stuckLow, fun hab hb hl => ⟨?noise, fun hsel => ?select⟩⟩⟩
  · rw [step_seekLow hs hp, rxSeekLow, waitOrTimeout_timeout hidle.not_low]
  case stuckLow =>
    have hs' : plain { s with now := a, phase := .receiving (.seekRise a) m } := hs
    refine run_two (step_seekLow_fall hs hp h1 h2 hh (hlow.first (by omega))) ?_
    rw [step_seekRise hs' rfl, rxSeekRise,
      waitOrTimeout_timeout (s := { s with now := a, phase := .receiving (.seekRise a) m }) hlow.not_high]
    rfl
  case noise =>
    intro hshort hbh
    have hs' : plain { s with now := a, phase := .receiving (.seekRise a) m } := hs
    refine run_two (step_seekLow_fall hs hp h1 h2 hh (hl.first hab)) ?_
    rw [step_seekRise_found hs' rfl (waitUntil_rise (Nat.le_of_lt hab) hb hl hbh), if_neg (Nat.not_le.mpr hshort)]
    rfl
  case select =>
    have hs' : plain { s with now := b, phase := .receiving (.seekFall b) m } := hs
    refine ⟨fun hhigh => ?stuckHigh, fun hbc hc hh' hcl => ?fall⟩
    case stuckHigh =>
      have htime : 27 * s.cfg.bitPeriod < s.cfg.tTimeout := hs.1.2.1
      rw [run_add 2 1 (run_select hs hp h1 h2 hh hab hb hl (hhigh.first (by omega)) hsel), run_one (step_seekFall hs' rfl),
        rxSeekFall, waitOrTimeout_timeout (s := { s with now := b, phase := .receiving (.seekFall b) m }) hhigh.not_low]
      rfl
    case fall =>
      refine ⟨fun hshort => ?_, fun hlong => run_start hs hp h1 h2 hh hab hb hl hsel hbc hc hh' hcl hlong⟩
      have hfound := step_seekFall_found hs' rfl (waitUntil_fall (Nat.le_of_lt hbc) hc hh' hcl)
      rw [run_add 2 1 (run_select hs hp h1 h2 hh hab hb hl (hh'.first hbc) hsel), run_one hfound,
        if_neg (Nat.not_le.mpr hshort)]
      rfl

/-- Settles O17: phase 1 with its expiry, and phase 2 by its three bands. -/
theorem decodeBitMeasuresTheHighPhase : Obligations.DecodeBitMeasuresTheHighPhase := by
  intro s i acc m a d hs hp
  refine ⟨fun hlow => run_one ?_, fun h1 h2 hl hd hh => ⟨fun hzero hfall => ?_, fun hone hlim hfall => ?_, fun hstop => ?_⟩⟩
  · rw [step_bitRise hs hp, rxBitRise, waitOrTimeout_timeout hlow.not_high]
  · rw [run_bit hs hp h1 h2 hl hd hh hfall (by omega), bitOf_eq_false hzero]
  · rw [run_bit hs hp h1 h2 hl hd hh hfall hlim, bitOf_eq_true hone]
  · exact run_stop hs hp h1 h2 hl hh hstop

/-- Settles O18: 20% about nominal lies inside the band of each bit. -/
theorem twentyPercentIsTolerated : Obligations.TwentyPercentIsTolerated := by
  intro s i acc m a d v hs hp h1 h2 hl hh hfall hzero hone
  have hbp : 1 ≤ s.cfg.bitPeriod := hs.1.1
  cases v with
  | false =>
    obtain ⟨hmin, hmax⟩ := hzero rfl
    rw [run_bit hs hp h1 h2 hl (by omega) hh hfall (by omega), bitOf_eq_false hmax]
  | true =>
    obtain ⟨hmin, hmax⟩ := hone rfl
    rw [run_bit hs hp h1 h2 hl (by omega) hh hfall hmax, bitOf_eq_true (by omega)]

end Sys2Proof
end

