-- ==== Sys2Proof/Proofs/ByteLoop.lean ====
section
/-! SUPPORT and PROOF. The byte loop of Receive on a line that carries bits (spec/41_bit_codec.md R124 to R131;
spec/42_frame_transport.md R144): what the waveform of bits looks like tick by tick, and the bit, byte and frame decoded
from it. -/

namespace Sys2Proof.Machine

open Claims

variable {s : State}

/-! ## The line while it carries bits -/

/-- The symbol is a bit. -/
def isBit (i : Instr) : Prop := ∃ v, i = bitSymbol v

/-- From the tick `t` on the line carries bits: each is low for one bit period and high for the rest (spec/30_encoding.md
R80). -/
def carriesBits (s : State) : Nat → List Instr → Prop
  | _, [] => True
  | t, i :: l =>
    lineIs s .low t (t + s.cfg.bitPeriod) ∧ lineIs s .high (t + s.cfg.bitPeriod) (t + symbolTicks s.cfg i) ∧
      carriesBits s (t + symbolTicks s.cfg i) l

theorem carriesBits_append {t : Nat} {l l' : List Instr} :
    carriesBits s t (l ++ l') ↔ carriesBits s t l ∧ carriesBits s (t + waveTicks s.cfg l) l' := by
  induction l generalizing t with
  | nil => simp [carriesBits, waveTicks]
  | cons i l ih => simp only [List.cons_append, carriesBits, waveTicks, ih, Nat.add_assoc, and_assoc]

/-- What the line carries does not depend on the position of the node. -/
theorem carriesBits_congr {s' : State} {t : Nat} {l : List Instr} (hc : s'.cfg = s.cfg)
    (hline : ∀ x, lineAt s' x = lineAt s x) (h : carriesBits s t l) : carriesBits s' t l := by
  induction l generalizing t with
  | nil => trivial
  | cons i l ih =>
    obtain ⟨hlow, hhigh, htail⟩ := h
    rw [carriesBits, hc]
    exact ⟨fun x h1 h2 => (hline x).trans (hlow x h1 h2), fun x h1 h2 => (hline x).trans (hhigh x h1 h2), ih htail⟩

/-- A bit begins low. -/
theorem carriesBits_first {t : Nat} {i : Instr} {l : List Instr} (hbp : 1 ≤ s.cfg.bitPeriod)
    (h : carriesBits s t (i :: l)) : lineAt s t = .low := h.1.first (by omega)

theorem isBit_of_mem_bitSymbols {b : Byte} {n : Nat} {i : Instr} (h : i ∈ bitSymbols b n) : isBit i := by
  induction n with
  | zero => simp [bitSymbols] at h
  | succ n ih =>
    rcases List.mem_cons.mp h with rfl | h
    · exact ⟨_, rfl⟩
    · exact ih h

theorem isBit_of_mem_bytes {fb : List Byte} {i : Instr} (h : i ∈ fb.flatMap byteSymbols) : isBit i := by
  obtain ⟨b, -, hb⟩ := List.mem_flatMap.mp h
  exact isBit_of_mem_bitSymbols hb

theorem symbolLows_bit {i : Instr} (h : isBit i) (c : NodeConfig) (t : Nat) :
    symbolLows c t i = [⟨t, c.bitPeriod⟩] := by
  obtain ⟨v, rfl⟩ := h
  cases v <;> rfl

theorem bitSymbol_ticks (c : NodeConfig) (v : Bool) :
    symbolTicks c (bitSymbol v) = c.bitPeriod + (if v then 2 else 1) * c.bitPeriod := by
  cases v <;> simp [bitSymbol, symbolTicks] <;> omega

theorem bitPeriod_le_symbolTicks {i : Instr} (h : isBit i) (c : NodeConfig) : c.bitPeriod ≤ symbolTicks c i := by
  obtain ⟨v, rfl⟩ := h
  rw [bitSymbol_ticks]
  exact Nat.le_add_right _ _

theorem lineShows_high {L : List Span} {a b x : Nat} (h : lineShows s L a b) (h1 : a ≤ x) (h2 : x < b)
    (hx : coversAny L x = false) : lineAt s x = .high := by
  rcases level_low_or_high (lineAt s x) with hl | hh
  · rw [(h x h1 h2).mp hl] at hx
    cases hx
  · exact hh

/-- A line that shows the lows of bits, after spans that have ended and before spans that begin later, carries those
bits. -/
theorem carriesBits_of_lineShows {pre : List Span} {l rest : List Instr} {a b t : Nat} (hl : ∀ i ∈ l, isBit i)
    (hpre : ∀ sp ∈ pre, sp.start + sp.len ≤ t) (hat : a ≤ t) (htb : t + waveTicks s.cfg l ≤ b)
    (h : lineShows s (pre ++ waveLows s.cfg t (l ++ rest)) a b) : carriesBits s t l := by
  induction l generalizing pre t with
  | nil => trivial
  | cons i l ih =>
    have hi : isBit i := hl i (List.mem_cons_self ..)
    have hlen := bitPeriod_le_symbolTicks hi s.cfg
    simp only [waveTicks] at htb
    simp only [List.cons_append, waveLows, symbolLows_bit hi] at h
    refine ⟨fun x h1 h2 => ?low, fun x h1 h2 => ?high, ih (pre := pre ++ [⟨t, s.cfg.bitPeriod⟩]) ?_ ?_ ?_ ?_ ?_⟩
    case low =>
      refine (h x (by omega) (by omega)).mpr ?_
      simp [coversAny_append, coversAny_cons, Span.covers, h1, h2]
    case high =>
      refine lineShows_high h (by omega) (by omega) ?_
      have hlater := coversAny_before
        (fun sp hsp => (waveLows_within s.cfg (l ++ rest) (t + symbolTicks s.cfg i) sp hsp).1) h2
      have hbefore : coversAny pre x = false := coversAny_after hpre (by omega)
      have hself : Span.covers ⟨t, s.cfg.bitPeriod⟩ x = false := by simp [Span.covers]; omega
      simp [coversAny_append, coversAny_cons, hbefore, hself, hlater]
    · exact fun j hj => hl j (List.mem_cons_of_mem _ hj)
    · intro sp hsp
      rcases List.mem_append.mp hsp with hsp | hsp
      · exact (hpre sp hsp).trans (Nat.le_add_right _ _)
      · rw [List.mem_singleton.mp hsp]
        exact Nat.add_le_add_left hlen t
    · omega
    · omega
    · rwa [List.append_assoc]

/-! ## Bits and bytes -/

/-- A bit on the line is decoded as itself in two waits, at its end. -/
theorem run_bitSymbol {i m : Nat} {acc : Byte} {v : Bool} {rest : List Instr} (hs : plain s)
    (hp : s.phase = .receiving (.bitRise i acc) m) (h : carriesBits s s.now (bitSymbol v :: rest))
    (hfall : lineAt s (s.now + symbolTicks s.cfg (bitSymbol v)) = .low) :
    run 2 s = .next (afterBit i acc v m { s with now := s.now + symbolTicks s.cfg (bitSymbol v) }) := by
  obtain ⟨hbp, htime, -⟩ := hs.1
  obtain ⟨hl, hh, -⟩ := h
  rw [bitSymbol_ticks, ← Nat.add_assoc] at hh hfall ⊢
  cases v with
  | false =>
    rw [run_bit hs hp (Nat.le_add_right _ _) (by omega) hl (by simp; omega) hh hfall (by simp; omega),
      bitOf_eq_false (by simp; omega)]
  | true =>
    rw [run_bit hs hp (Nat.le_add_right _ _) (by omega) hl (by simp; omega) hh hfall (by simp; omega),
      bitOf_eq_true (by simp; omega)]

/-- The last `i + 1` bits of a byte on the line complete the byte, whose bits before them have been shifted in
(spec/41_bit_codec.md R129). -/
theorem run_bitSymbols {b : Byte} {i m : Nat} (hi : i < 8) (hs : plain s)
    (hp : s.phase = .receiving (.bitRise i (b >>> (i + 1))) m) (h : carriesBits s s.now (bitSymbols b (i + 1)))
    (hfall : lineAt s (s.now + waveTicks s.cfg (bitSymbols b (i + 1))) = .low) :
    run (2 * (i + 1)) s =
      .next (afterByte b m { s with now := s.now + waveTicks s.cfg (bitSymbols b (i + 1)) }) := by
  induction i generalizing s with
  | zero =>
    have hbyte : (b >>> 1) <<< 1 ||| (if b.getLsbD 0 then 1 else 0) = b := shiftIn_top b 0 (by decide)
    rw [show 2 * (0 + 1) = 2 from rfl, run_bitSymbol hs hp h hfall, afterBit, hbyte]
    rfl
  | succ i ih =>
    have htail : carriesBits s (s.now + symbolTicks s.cfg (bitSymbol (b.getLsbD (i + 1)))) (bitSymbols b (i + 1)) := h.2.2
    have hbit := run_bitSymbol hs hp h (carriesBits_first hs.1.1 htail)
    have hacc : (b >>> (i + 1 + 1)) <<< 1 ||| (if b.getLsbD (i + 1) then 1 else 0) = b >>> (i + 1) := shiftIn_top b (i + 1) hi
    rw [afterBit, hacc] at hbit
    have hticks : s.now + waveTicks s.cfg (bitSymbols b (i + 1 + 1)) =
        s.now + symbolTicks s.cfg (bitSymbol (b.getLsbD (i + 1))) + waveTicks s.cfg (bitSymbols b (i + 1)) := by
      rw [bitSymbols, waveTicks, Nat.add_assoc]
    rw [hticks] at hfall ⊢
    rw [show 2 * (i + 1 + 1) = 2 + 2 * (i + 1) by omega, run_add 2 _ hbit]
    rw [ih (s := { s with
        now := s.now + symbolTicks s.cfg (bitSymbol (b.getLsbD (i + 1))), phase := .receiving (.bitRise i (b >>> (i + 1))) m })
      (by omega) hs rfl (carriesBits_congr (s := s) rfl (fun _ => rfl) htail) hfall]
    rfl

/-- A byte on the line is decoded in sixteen waits, at the tick its waveform ends (spec/41_bit_codec.md R131). -/
theorem run_byteSymbols {b : Byte} {m : Nat} (hs : plain s) (hp : s.phase = .receiving (.bitRise 7 0) m)
    (h : carriesBits s s.now (byteSymbols b)) (hfall : lineAt s (s.now + waveTicks s.cfg (byteSymbols b)) = .low) :
    run 16 s = .next (afterByte b m { s with now := s.now + waveTicks s.cfg (byteSymbols b) }) := by
  have hacc : b >>> (7 + 1) = 0 := BitVec.ushiftRight_eq_zero (by decide)
  exact run_bitSymbols (i := 7) (by decide) hs (by rw [hacc]; exact hp) h hfall

theorem afterByte_of_room {m : Nat} (b : Byte) (h : s.fb.length + 1 < m + 2) :
    afterByte b m s = { s with fb := s.fb ++ [b], phase := .receiving (.bitRise 7 0) m } := by
  rw [afterByte, if_pos h]

/-- The state in which the bytes `l` have just been decoded (spec/42_frame_transport.md R144). -/
def afterBytes (l : List Byte) (m : Nat) (s : State) : State :=
  { s with
    fb := s.fb ++ l
    phase := .receiving (if s.fb.length + l.length < m + 2 then .bitRise 7 0 else .judge) m }

/-- So are the bytes of a frame, as long as there is room for them. -/
theorem run_bytes {l : List Byte} {m : Nat} (hs : plain s) (hp : s.phase = .receiving (.bitRise 7 0) m)
    (hroom : s.fb.length < m + 2) (hlen : s.fb.length + l.length ≤ m + 2)
    (h : carriesBits s s.now (l.flatMap byteSymbols))
    (hfall : lineAt s (s.now + waveTicks s.cfg (l.flatMap byteSymbols)) = .low) :
    run (16 * l.length) s =
      .next (afterBytes l m { s with now := s.now + waveTicks s.cfg (l.flatMap byteSymbols) }) := by
  induction l generalizing s with
  | nil =>
    simp only [List.length_nil, Nat.mul_zero, run_zero, afterBytes, List.flatMap_nil, waveTicks, List.append_nil,
      Nat.add_zero, if_pos hroom, ← hp]
  | cons b l ih =>
    rw [List.flatMap_cons] at h hfall ⊢
    rw [waveTicks_append, ← Nat.add_assoc] at hfall ⊢
    obtain ⟨hbyte, htail⟩ := carriesBits_append.mp h
    cases l with
    | nil => exact run_byteSymbols hs hp hbyte hfall
    | cons b' l =>
      have hmore : s.fb.length + 1 < m + 2 := by simp only [List.length_cons] at hlen; omega
      have hfirst := run_byteSymbols hs hp hbyte (carriesBits_first hs.1.1 htail)
      rw [afterByte_of_room (s := { s with now := s.now + waveTicks s.cfg (byteSymbols b) }) b hmore] at hfirst
      rw [show 16 * (b :: b' :: l).length = 16 + 16 * (b' :: l).length by simp only [List.length_cons]; omega,
        run_add 16 _ hfirst, ih (s := { s with
          fb := s.fb ++ [b], now := s.now + waveTicks s.cfg (byteSymbols b), phase := .receiving (.bitRise 7 0) m })
          hs rfl (by simpa using hmore) (by simp at hlen ⊢; omega)
          (carriesBits_congr (s := s) rfl (fun _ => rfl) htail) hfall]
      simp only [afterBytes, List.append_assoc, List.length_append, List.length_cons, List.length_nil, List.singleton_append,
        show s.fb.length + (0 + 1) + (l.length + 1) = s.fb.length + (l.length + 1 + 1) by omega]

end Sys2Proof.Machine

namespace Sys2Proof

open Machine Claims

/-- Settles O19: the line carries the bits of the byte, and each of them takes two waits. -/
theorem decodeByteInvertsEncodeByte : Obligations.DecodeByteInvertsEncodeByte := by
  intro s m b hs hp hshows hfall
  refine run_byteSymbols hs hp ?_ hfall
  have hl : ∀ i ∈ byteSymbols b, isBit i := fun i hi => isBit_of_mem_bitSymbols hi
  exact carriesBits_of_lineShows (pre := []) (rest := []) hl (by simp) (Nat.le_refl _) (Nat.le_refl _) (by simpa using hshows)

end Sys2Proof
end

