-- ==== Sys2Proof/Proofs/Delivery.lean ====
section
/-! SUPPORT and PROOF. Steps 3 to 7 of Receive on a frame that passes them (spec/42_frame_transport.md R146 to R152, R156,
R157), and the whole of a READ that receives one (R155). -/

namespace Sys2Proof.Machine

open Claims

variable {s : State} {a : Addr}

/-! ## Frames that pass every check -/

theorem discardReason_accepted (h : 2 ≤ s.fb.length) (ha : s.cfg.role = .slave → a = s.cfg.ownAddress)
    (hc : s.fb.getLast? = some (checksum s.fb.dropLast)) : discardReason a s = none := by
  rw [discardReason, if_neg (Nat.not_lt.mpr h), if_neg fun ⟨hs, hne⟩ => hne (ha hs),
    if_neg (by simp [(checksumHolds_iff s.fb).mpr hc])]

/-- A delivery ends READ with `Ok` and the payload length (spec/42_frame_transport.md R151). -/
theorem deliver_eq (s : State) :
    deliver s = ended (statusWord .ok (s.fb.length - 2))
      { s with rxbuf := rxContents s.draws (rxPayload s.fb), draws := s.draws + 1 } := by
  rw [deliver, rxPayload_length]
  rfl

/-- A read request is delivered with the turn of a Slave granted (spec/42_frame_transport.md R150). -/
theorem exec_frameRdreq_accepted (hr : discardReason a s = none) :
    exec (.frameRdreq a) s = .next (ended (statusWord .ok (s.fb.length - 2))
      { s with
        rxbuf := rxContents s.draws (rxPayload s.fb)
        draws := s.draws + 1
        writeEnabled := decide (s.cfg.role = .slave) || s.writeEnabled }) := by
  simp only [exec, execFrameRdreq, hr, turnGrant_eq, deliver_eq]

theorem exec_frameData_accepted (hr : discardReason a s = none) :
    exec (.frameData a) s = .next (ended (statusWord .ok (s.fb.length - 2))
      { s with rxbuf := rxContents s.draws (rxPayload s.fb), draws := s.draws + 1 }) := by
  simp only [exec, execFrameData, hr, deliver_eq]

/-- The frame at the end of the byte loop, accepted. -/
theorem exec_decodeHdr_accepted {h : Byte} (hr : discardReason (headerAddr h) s = none) :
    exec (decodeHdr h) s = .next (ended (statusWord .ok (s.fb.length - 2))
      { s with
        rxbuf := rxContents s.draws (rxPayload s.fb)
        draws := s.draws + 1
        writeEnabled := if s.cfg.role = .slave ∧ headerDir h = 0 then true else s.writeEnabled }) := by
  rcases decodeHdr_cases h with ⟨hd, e⟩ | ⟨hd, e⟩ <;> rw [e]
  · rw [exec_frameRdreq_accepted hr]
    cases hrole : s.cfg.role <;> simp [hd]
  · rw [exec_frameData_accepted hr, if_neg fun hc => hd hc.2]

theorem exec_decodeHdr_rejected {h : Byte} {r : Discard} (hr : discardReason (headerAddr h) s = some r) :
    exec (decodeHdr h) s = .next (discardFrame r s) := by
  rcases decodeHdr_cases h with ⟨-, e⟩ | ⟨-, e⟩ <;> rw [e]
  · exact exec_frame_rejected (.inl rfl) hr
  · exact exec_frame_rejected (.inr rfl) hr

/-- What a delivery leaves in `RXBUF`: the bytes between header and checksum. -/
theorem rxContents_rxPayload_get? (d : Nat) (fb : List Byte) (i : Nat) (hi : i < 32) (hlen : i < fb.length - 2) :
    (rxContents d (rxPayload fb))[i]? = fb[i + 1]? := by
  rw [rxContents_get? d _ i hi (by rwa [rxPayload_length]), rxPayload_get? fb i hlen]

/-! ## The outcomes of a step inside Receive -/

/-- READ goes on under the limit `m`, and the host sees nothing of it. -/
def ReadGoesOn (m : Nat) (s t : State) : Prop :=
  (∃ q, t.phase = .receiving q m) ∧ t.status = s.status ∧ t.rxbuf = s.rxbuf ∧ t.writeEnabled = s.writeEnabled

/-- READ has ended with `Timeout`, and nothing was delivered (spec/42_frame_transport.md R152). -/
def ReadTimedOut (s t : State) : Prop :=
  t.phase = .ready ∧ t.status = 0x06000000 ∧ t.rxbuf = s.rxbuf ∧ t.writeEnabled = s.writeEnabled

/-- READ has ended with `Ok` at the end of the byte loop, and the frame it delivered has passed every check
(spec/42_frame_transport.md R141, R156). -/
def ReadDelivered (p : RxPos) (s t : State) : Prop :=
  t.phase = .ready ∧ p = .judge ∧ t.status = statusWord .ok (s.fb.length - 2) ∧
    ∃ h rest, s.fb = h :: rest ∧ rest ≠ [] ∧ (s.cfg.role = .slave → headerAddr h = s.cfg.ownAddress) ∧
      s.fb.getLast? = some (checksum s.fb.dropLast) ∧
      ∀ i, i < 32 → i < s.fb.length - 2 → t.rxbuf[i]? = s.fb[i + 1]?

theorem discardFrame_goesOn {p : RxPos} {m t : Nat} (r : Discard) (hp : s.phase = .receiving p m) :
    ReadGoesOn m s (discardFrame r (advanceTo t s)) := by
  rw [discardFrame_receiving (s := advanceTo t s) r hp]
  exact ⟨⟨_, rfl⟩, rfl, rfl, rfl⟩

theorem waitOrTimeout_outcome {m : Nat} {v : Level} {f : State → State}
    (hf : ∀ t, ReadGoesOn m s (f (advanceTo t s))) :
    ReadTimedOut s (waitOrTimeout v f s) ∨ ReadGoesOn m s (waitOrTimeout v f s) := by
  rcases waitOrTimeout_cases v f s with ⟨t, -, e⟩ | ⟨-, e⟩ <;> rw [e]
  · exact .inr (hf t)
  · exact .inl ⟨rfl, rfl, rfl, rfl⟩

theorem rxBitFall_goesOn (i : Nat) (acc : Byte) (tRise m : Nat) (s : State) :
    ReadGoesOn m s (rxBitFall i acc tRise m s) := by
  rcases rxBitFall_cases i acc tRise m s with ⟨t, -, e⟩ | ⟨-, e⟩ <;> rw [e]
  · rw [rxBitDone_eq]
    cases i <;> exact ⟨⟨_, rfl⟩, rfl, rfl, rfl⟩
  · exact ⟨⟨_, rfl⟩, rfl, rfl, rfl⟩

/-- A wait goes on or expires; at the end of the byte loop a frame is discarded or has passed every check. -/
theorem moves_receiving {t : State} {p : RxPos} {m : Nat} (hp : s.phase = .receiving p m) (h : Moves s t) :
    ReadTimedOut s t ∨ ReadDelivered p s t ∨ ReadGoesOn m s t := by
  have wait {t : State} (h : ReadTimedOut s t ∨ ReadGoesOn m s t) :
      ReadTimedOut s t ∨ ReadDelivered p s t ∨ ReadGoesOn m s t := h.imp_right .inr
  cases h with
  | idle hp' | wait _ _ hp' | writeTx _ _ _ hp' | pinSetup _ _ hp' | command _ _ _ _ hp' | opening _ _ hp'
  | transmitting _ _ hp' => cases hp'.symm.trans hp
  | seekLow m hp' => cases hp'.symm.trans hp; exact wait (waitOrTimeout_outcome fun _ => ⟨⟨_, rfl⟩, rfl, rfl, rfl⟩)
  | seekRise tLow m hp' =>
    cases hp'.symm.trans hp
    refine wait (waitOrTimeout_outcome fun _ => ?_)
    split
    · exact ⟨⟨_, rfl⟩, rfl, rfl, rfl⟩
    · exact discardFrame_goesOn .noise hp
  | seekFall tRise m hp' =>
    cases hp'.symm.trans hp
    refine wait (waitOrTimeout_outcome fun _ => ?_)
    split
    · exact ⟨⟨_, rfl⟩, rfl, rfl, rfl⟩
    · exact discardFrame_goesOn .noise hp
  | bitRise i acc m hp' => cases hp'.symm.trans hp; exact wait (waitOrTimeout_outcome fun _ => ⟨⟨_, rfl⟩, rfl, rfl, rfl⟩)
  | bitFall i acc tRise m hp' => cases hp'.symm.trans hp; exact wait (.inr (rxBitFall_goesOn i acc tRise m s))
  | noBytes m hp' => cases hp'.symm.trans hp; exact wait (.inr (discardFrame_goesOn .malformed hp))
  | frame m b rest t hp' hf he =>
    cases hp'.symm.trans hp
    cases hr : discardReason (headerAddr b) s with
    | some r =>
      rw [exec_decodeHdr_rejected hr] at he
      cases he
      exact wait (.inr (discardFrame_goesOn r hp))
    | none =>
      rw [exec_decodeHdr_accepted hr] at he
      cases he
      obtain ⟨hlen, ha, hsum⟩ := discardReason_none hr
      have hrest : rest ≠ [] := by rintro rfl; simp [hf] at hlen
      exact .inr (.inl ⟨rfl, rfl, rfl, b, rest, hf, hrest, ha, (checksumHolds_iff s.fb).mp hsum,
        rxContents_rxPayload_get? s.draws s.fb⟩)

/-! ## One wrong byte -/

/-- Of two checksums over lists that differ in one byte, each is the other plus the difference. -/
theorem checksum_set {l : List Byte} {k : Nat} (hk : k < l.length) (b : Byte) :
    checksum (l.set k b) + l[k] = checksum l + b := by
  induction l generalizing k with
  | nil => simp at hk
  | cons c l ih =>
    cases k with
    | zero =>
      simp only [List.set_cons_zero, checksum, List.getElem_cons_zero]
      rw [BitVec.add_comm b, BitVec.add_assoc, BitVec.add_comm b, ← BitVec.add_assoc, BitVec.add_comm c]
    | succ k =>
      simp only [List.set_cons_succ, checksum, List.getElem_cons_succ, BitVec.add_assoc]
      rw [ih (by simpa using hk)]

/-- A checksum that holds does not survive a change of one byte (spec/42_frame_transport.md R157). -/
theorem checksumHolds_set {fb : List Byte} {k : Nat} {b : Byte} (hk : k < fb.length)
    (hc : fb.getLast? = some (checksum fb.dropLast)) (hb : fb[k]? ≠ some b) :
    (fb.set k b).getLast? ≠ some (checksum (fb.set k b).dropLast) := by
  obtain ⟨init, c, rfl⟩ : ∃ init c, fb = init ++ [c] := ⟨_, _, (List.dropLast_append_getLast (by rintro rfl; simp at hk)).symm⟩
  simp only [List.getLast?_concat, List.dropLast_concat, Option.some.injEq] at hc
  intro hset
  rcases Nat.lt_or_ge k init.length with hlt | hge
  · rw [List.set_append_left _ _ hlt, List.getLast?_concat, List.dropLast_concat, Option.some.injEq] at hset
    have hsum := checksum_set hlt b
    rw [← hset, hc] at hsum
    refine hb ?_
    rw [List.getElem?_append_left hlt, List.getElem?_eq_getElem hlt, add_left_cancel hsum]
  · obtain rfl : k = init.length := by simp at hk; omega
    simp [List.set_append_right, ← hc] at hset
    simp [hset] at hb

end Sys2Proof.Machine

namespace Sys2Proof

open Machine Claims

/-- Settles O12: both kinds of frame, past every check, end in a delivery. -/
theorem acceptedFramesAreDelivered : Obligations.AcceptedFramesAreDelivered := by
  intro s a hlen ha hc
  have hr := discardReason_accepted hlen ha hc
  exact ⟨_, rxContents_rxPayload_get? s.draws s.fb, exec_frameRdreq_accepted hr, exec_frameData_accepted hr⟩

/-- Settles O14: the outcomes of a step inside Receive. -/
theorem receiveEndsOkOrTimeout : Obligations.ReceiveEndsOkOrTimeout :=
  fun _ _ _ _ hs hp hstep => moves_receiving hp (stepCore_moves (step_plain hs ▸ hstep))

/-- Settles O15: the checksum of the changed frame does not hold, so some check discards it. -/
theorem oneWrongByteIsNeverDelivered : Obligations.OneWrongByteIsNeverDelivered := by
  intro s p m fb k b hp hlen hc hk hb hfb
  obtain ⟨h, rest, hcons⟩ : ∃ h rest, s.fb = h :: rest :=
    List.exists_cons_of_length_pos (by rw [hfb, List.length_set]; omega)
  cases hr : discardReason (headerAddr h) s with
  | some r => exact ⟨h, rest, r, hcons, by rw [exec_decodeHdr_rejected hr, discardFrame_receiving r hp]⟩
  | none =>
    have hsum := (checksumHolds_iff s.fb).mp (discardReason_none hr).2.2
    rw [hfb] at hsum
    exact absurd hsum (checksumHolds_set hk hc hb)

end Sys2Proof
end

