-- ==== Sys2Proof/Proofs/ReadFrame.lean ====
section
/-! SUPPORT and PROOF. A READ that receives a frame from the first select low to its end (spec/42_frame_transport.md R155):
the levels of a line with a frame on it, and the run of READ through them. -/

namespace Sys2Proof.Machine

open Claims

variable {s : State}

/-- The tick at which the bytes of a frame end that begin at `t`. -/
def bytesEnd (c : NodeConfig) (t : Nat) (fb : List Byte) : Nat := t + waveTicks c (fb.flatMap byteSymbols)

/-- From the tick `t` on the line carries the bits of the bytes, and then the low and the high of a stop symbol. -/
structure ByteLevels (s : State) (t : Nat) (fb : List Byte) : Prop where
  bits : carriesBits s t (fb.flatMap byteSymbols)
  stopLow : lineIs s .low (bytesEnd s.cfg t fb) (bytesEnd s.cfg t fb + s.cfg.bitPeriod)
  stopHigh : lineIs s .high (bytesEnd s.cfg t fb + s.cfg.bitPeriod)
    (bytesEnd s.cfg t fb + s.cfg.bitPeriod + stopLimit s.cfg)

/-- The line as READ meets a frame on it: rest, select low from `t0` up to `b`, start high up to `t1`, and the bytes. -/
structure FrameLevels (s : State) (t0 b t1 : Nat) (fb : List Byte) : Prop where
  rest : lineIs s .high s.now (max s.now t0)
  select : lineIs s .low (max s.now t0) b
  start : lineIs s .high b t1
  bytes : ByteLevels s t1 fb

/-- The lows of a frame: those of its bytes, and the low of the stop symbol. -/
theorem waveLows_frameSymbols (c : NodeConfig) (t : Nat) (fb : List Byte) :
    waveLows c t (frameSymbols fb) =
      waveLows c t (fb.flatMap byteSymbols) ++ [⟨bytesEnd c t fb, c.bitPeriod⟩] := by
  rw [frameSymbols, waveLows_append]
  rfl

theorem frameLevels_of_frameOnLine {t0 l t1 : Nat} {fb : List Byte} (hnow : s.now < t0 + l) (hlt : t0 + l < t1)
    (h : frameOnLine s t0 l t1 fb) : FrameLevels s t0 (t0 + l) t1 fb := by
  unfold frameOnLine at h
  have hbits : carriesBits s t1 (fb.flatMap byteSymbols) :=
    carriesBits_of_lineShows (pre := [⟨t0, l⟩]) (rest := [.symStop]) (fun _ hi => isBit_of_mem_bytes hi)
      (by simp; omega) (by omega) (by omega) h
  have hle : t1 ≤ bytesEnd s.cfg t1 fb := Nat.le_add_right _ _
  have hwithin : ∀ sp ∈ waveLows s.cfg t1 (fb.flatMap byteSymbols),
      t1 ≤ sp.start ∧ sp.start + sp.len ≤ bytesEnd s.cfg t1 fb := waveLows_within s.cfg (fb.flatMap byteSymbols) t1
  change lineShows s _ s.now (bytesEnd s.cfg t1 fb + s.cfg.bitPeriod + stopLimit s.cfg) at h
  rw [waveLows_frameSymbols] at h
  generalize he : bytesEnd s.cfg t1 fb = e at h hle hwithin
  generalize waveLows s.cfg t1 (fb.flatMap byteSymbols) = lows at h hwithin
  have covered (x : Nat) : coversAny (⟨t0, l⟩ :: (lows ++ [⟨e, s.cfg.bitPeriod⟩])) x = true ↔
      (t0 ≤ x ∧ x < t0 + l) ∨ coversAny lows x = true ∨ (e ≤ x ∧ x < e + s.cfg.bitPeriod) := by
    simp [coversAny, Span.covers]
  have low {x : Nat} (h1 : s.now ≤ x) (h2 : x < e + s.cfg.bitPeriod + stopLimit s.cfg)
      (hx : (t0 ≤ x ∧ x < t0 + l) ∨ (e ≤ x ∧ x < e + s.cfg.bitPeriod)) : lineAt s x = .low :=
    (h x h1 h2).mpr ((covered x).mpr (hx.imp_right .inr))
  have high {x : Nat} (h1 : s.now ≤ x) (h2 : x < e + s.cfg.bitPeriod + stopLimit s.cfg) (hbytes : x < t1 ∨ e ≤ x)
      (hselect : x < t0 ∨ t0 + l ≤ x) (hstop : x < e ∨ e + s.cfg.bitPeriod ≤ x) : lineAt s x = .high := by
    refine lineShows_high h h1 h2 (Bool.eq_false_iff.mpr fun hc => ?_)
    have hlows : coversAny lows x = false :=
      hbytes.elim (coversAny_before fun sp hsp => (hwithin sp hsp).1) (coversAny_after fun sp hsp => (hwithin sp hsp).2)
    rcases (covered x).mp hc with hc | hc | hc
    · omega
    · rw [hlows] at hc; cases hc
    · omega
  exact {
    rest := fun x h1 h2 => high (by omega) (by omega) (by omega) (by omega) (by omega)
    select := fun x h1 h2 => low (by omega) (by omega) (by omega)
    start := fun x h1 h2 => high (by omega) (by omega) (by omega) (by omega) (by omega)
    bytes :=
      { bits := hbits
        stopLow := fun x h1 h2 => low (by omega) (by omega) (by omega)
        stopHigh := fun x h1 h2 => high (by omega) (by omega) (by omega) (by omega) (by omega) } }

/-! ## The run of READ -/

theorem lt_stopLimit (c : NodeConfig) : 24 * c.bitPeriod < 10 * stopLimit c := by
  unfold stopLimit
  omega

/-- When the byte loop ends, the last bit ending at `t`: at once on a frame that fills the limit `m`, else on the stop
symbol (spec/42_frame_transport.md R144, R145). -/
def loopEnd (c : NodeConfig) (m : Nat) (p : List Byte) (t : Nat) : Nat :=
  t + (if p.length = m then 0 else c.bitPeriod + stopLimit c)

/-- The byte loop takes in a frame within the limit, and ends. -/
theorem run_byteLoop {m : Nat} {h : Byte} {p : List Byte} (hs : plain s) (hp : s.phase = .receiving (.bitRise 7 0) m)
    (hfb : s.fb = []) (hm : p.length ≤ m) (hl : ByteLevels s s.now (frameBytes h p)) :
    ∃ k, run k s = .next { s with
      fb := frameBytes h p
      phase := .receiving .judge m
      now := loopEnd s.cfg m p (bytesEnd s.cfg s.now (frameBytes h p)) } := by
  have hbp : 1 ≤ s.cfg.bitPeriod := hs.1.1
  have hbound : s.cfg.bitPeriod < s.cfg.tTimeout := by have htime := hs.1.2.1; omega
  have hbytes := run_bytes hs hp (by simp [hfb]) (by rw [hfb, frameBytes_length]; simpa using hm) hl.bits
    (hl.stopLow.first (by omega))
  simp only [afterBytes, hfb, List.nil_append, List.length_nil, Nat.zero_add, frameBytes_length] at hbytes
  by_cases hfull : p.length = m
  · rw [if_neg (by omega)] at hbytes
    exact ⟨_, by rw [hbytes, loopEnd, if_pos hfull]; rfl⟩
  · rw [if_pos (by omega)] at hbytes
    refine ⟨_, (run_add _ 2 hbytes).trans ?_⟩
    rw [loopEnd, if_neg hfull, ← Nat.add_assoc]
    exact run_stop (s := { s with
        fb := frameBytes h p
        phase := .receiving (.bitRise 7 0) m
        now := bytesEnd s.cfg s.now (frameBytes h p) })
      hs rfl (Nat.le_add_right _ _) (Nat.add_lt_add_left hbound _) hl.stopLow hl.stopHigh (lt_stopLimit s.cfg)

/-- A frame for this node, judged at the end of the byte loop. -/
theorem step_judge_frame {m : Nat} {h : Byte} {p : List Byte} (hs : plain s) (hp : s.phase = .receiving .judge m)
    (hfb : s.fb = frameBytes h p) (haddr : s.cfg.role = .slave → headerAddr h = s.cfg.ownAddress) :
    step s = .next (ended (statusWord .ok p.length)
      { s with
        rxbuf := rxContents s.draws p
        draws := s.draws + 1
        writeEnabled := if s.cfg.role = .slave ∧ headerDir h = 0 then true else s.writeEnabled }) := by
  have hr : discardReason (headerAddr h) s = none :=
    discardReason_accepted (by rw [hfb, frameBytes_length]; omega) haddr
      ((checksumHolds_iff s.fb).mp (hfb ▸ checksumHolds_frameBytes h p))
  rw [step_plain hs, stepCore_run (fetch_judge hp hfb) (decodeHdr_not_symbol h), exec_decodeHdr_accepted hr, hfb,
    frameBytes_length, Nat.add_sub_cancel, rxPayload_frameBytes]

end Sys2Proof.Machine

namespace Sys2Proof

open Machine Claims

/-- Settles O6: the search finds the start of the frame, the byte loop takes it in, and the judgment delivers it. -/
theorem readReceivesAFrame : Obligations.ReadReceivesAFrame := by
  intro s maxLen t0 l t1 h p hs hi h1 h2 h3 hsel h4 hstart h5 hlen haddr hline
  have hl := frameLevels_of_frameOnLine h2 h4 hline
  have hselect : max s.now t0 < t0 + l := by
    obtain ⟨hbp, -, hmin, -⟩ := hs.1
    have hpos : 0 < s.cfg.selectMinX10 * s.cfg.bitPeriod := Nat.mul_pos (by omega) (by omega)
    omega
  have hbit : lineAt s t1 = .low := carriesBits_first hs.1.1 hl.bytes.bits
  have hfirst : max s.now t0 < s.now + s.cfg.tTimeout := by omega
  have hsearch := run_start (s := { clearPreamble s with fb := [], phase := .receiving .seekLow (rxLimit maxLen) }) hs rfl
    (Nat.le_max_left s.now t0) hfirst hl.rest hselect h3 hl.select hsel h4 h5 hl.start hbit hstart
  obtain ⟨k, hloop⟩ := run_byteLoop
    (s := { clearPreamble s with now := t1, fb := [], phase := .receiving (.bitRise 7 0) (rxLimit maxLen) }) hs rfl rfl hlen
    ⟨carriesBits_congr (s := s) rfl (fun _ => rfl) hl.bytes.bits, hl.bytes.stopLow, hl.bytes.stopHigh⟩
  have hjudge := step_judge_frame (s := { clearPreamble s with
      fb := frameBytes h p
      phase := .receiving .judge (rxLimit maxLen)
      now := loopEnd s.cfg (rxLimit maxLen) p (bytesEnd s.cfg t1 (frameBytes h p)) })
    hs rfl rfl haddr
  refine ⟨_, rxContents s.draws p, 3 + (k + 1), execCmdRead_initialized hi, rxContents_get? s.draws p, ?_⟩
  rw [run_add 3 _ hsearch, run_add k 1 hloop]
  exact run_one hjudge

end Sys2Proof
end

