-- ==== Sys2Proof/Proofs/Line.lean ====
section
/-! SUPPORT and PROOF. The line (spec/20_memory.md R50 to R53; spec/40_line_adapter.md R110, R113): its past is never
rewritten, only symbols put lows on it, a hardware reset cuts them short (spec/70_reset_and_hazards.md R210, R211), all nodes
see one line, and only READ looks at it. -/

namespace Sys2Proof.Machine

open Claims

variable {s t : State}

/-! ## The past -/

/-- From `s` to `t` time does not go back, and lows are only added, from the tick of `s` on. -/
structure Forward (s t : State) : Prop where
  now : s.now ≤ t.now
  lows : ∃ new, t.lows = s.lows ++ new ∧ ∀ sp ∈ new, s.now ≤ sp.start

theorem Forward.of_quiet (hq : Quiet s t) (hn : s.now ≤ t.now) : Forward s t := ⟨hn, [], by simp [hq.lows], by simp⟩

@[simp] theorem afterSymbol_now (s : State) : (afterSymbol s).now = s.now := by
  unfold afterSymbol
  split
  case h_3 => split <;> rfl
  all_goals rfl

@[simp] theorem afterSymbol_lows (s : State) : (afterSymbol s).lows = s.lows := by
  unfold afterSymbol
  split
  case h_3 => split <;> rfl
  all_goals rfl

theorem Forward.symbol {i : Instr} (hi : isSymbol i = true) (he : exec i s = .next t) : Forward s (afterSymbol t) := by
  rw [exec_symbol s hi] at he
  cases he
  exact ⟨by simp, _, by simp, fun sp hsp => (symbolLows_within s.cfg s.now i sp hsp).1⟩

theorem waitOrTimeout_now {v : Level} {f : State → State} (hf : ∀ u, (f u).now = u.now) :
    s.now ≤ (waitOrTimeout v f s).now := by
  rcases waitOrTimeout_cases v f s with ⟨a, ha, e⟩ | ⟨-, e⟩ <;> rw [e]
  · rw [hf]
    exact (waitUntil_found ha).1
  · exact Nat.le_add_right _ _

theorem rxBitFall_now (i : Nat) (acc : Byte) (tRise m : Nat) (s : State) : s.now ≤ (rxBitFall i acc tRise m s).now := by
  rcases rxBitFall_cases i acc tRise m s with ⟨a, ha, e⟩ | ⟨-, e⟩ <;> rw [e]
  · rw [rxBitDone_eq]
    cases i <;> exact (waitUntil_found ha).1
  · exact Nat.le_add_right _ _

theorem moves_forward (h : Moves s t) : Forward s t := by
  have ready (hp : s.phase = .ready) (hn : s.now ≤ t.now) : Forward s t := .of_quiet (moves_quiet h (.inl hp)) hn
  have receiving {p : RxPos} {m : Nat} (hp : s.phase = .receiving p m) (hn : s.now ≤ t.now) : Forward s t :=
    .of_quiet (moves_quiet h (.inr ⟨p, m, hp⟩)) hn
  cases h with
  | idle hp => exact ready hp (Nat.le_succ _)
  | wait n rest hp => exact ready hp (Nat.le_add_right _ _)
  | writeTx i v rest hp | pinSetup ok rest hp => exact ready hp (Nat.le_refl _)
  | command w rest i t hp _ hd he =>
    have hnow : t.now = startTick s := (exec_quiet (decodeCmd_not_symbol hd) he).2
    exact ready hp (hnow ▸ now_le_startTick s)
  | opening p u _ he => exact .symbol (preambleSymbol_isSymbol p) he
  | transmitting p u _ he => exact .symbol (txSymbol_isSymbol s.fb p) he
  | seekLow m hp => exact receiving hp (waitOrTimeout_now fun _ => rfl)
  | seekRise tLow m hp => exact receiving hp (waitOrTimeout_now fun u => by split <;> rfl)
  | seekFall tRise m hp => exact receiving hp (waitOrTimeout_now fun u => by split <;> rfl)
  | bitRise i acc m hp => exact receiving hp (waitOrTimeout_now fun _ => rfl)
  | bitFall i acc tRise m hp => exact receiving hp (rxBitFall_now i acc tRise m s)
  | noBytes m hp => exact receiving hp (Nat.le_refl _)
  | frame m b rest t hp _ he => exact receiving hp (exec_quiet (decodeHdr_not_symbol b) he).2.ge

/-- What a node drove before it got to where it is does not change. -/
theorem Forward.drove_eq (h : Forward s t) {x : Nat} (hx : x < s.now) : drove t x = drove s x := by
  obtain ⟨new, hlows, hnew⟩ := h.lows
  rw [drove, hlows, coversAny_append, coversAny_before hnew hx, Bool.or_false, drove]

/-! ## Hardware reset -/

theorem drove_resetDuring {r x : Nat} : drove (resetDuring r s t) x = true ↔ x < r ∧ drove t x = true :=
  coversAny_clipSpans r t.lows x

theorem step_resetDue {r : Nat} {rest : List Nat} (hc : legalConfig s.cfg) (hr : s.resets = r :: rest) (h : r ≤ s.now) :
    step s = .next (hardReset s) := by
  simp only [step, hr]
  rw [if_pos hc, if_pos h]

theorem step_resetNotDue {u : State} {r : Nat} {rest : List Nat} (hc : legalConfig s.cfg) (hr : s.resets = r :: rest)
    (h : s.now < r) (hu : stepCore s = .next u) :
    step s = .next (if r ≤ u.now then resetDuring r s u else u) := by
  simp only [step, hr]
  rw [if_pos hc, if_neg (Nat.not_le.mpr h), hu, onNext_next]

/-! ## One line for all nodes -/

/-- What READ samples at the ticks to come is what is on the record of the next state. -/
theorem lineAt_eq_levelSeen {x : Nat} (hq : Quiet s t) (ho : s.out = .released) (hl : LowsPast s) (hx : s.now ≤ x) :
    lineAt s x = levelSeen t x := by
  have hdrove : drove t x = false := by rw [drove, hq.lows]; exact coversAny_after hl hx
  simp only [lineAt, levelSeen, hdrove, ho, hq.peersLow, hq.envLow, hq.envHigh]
  rfl

theorem levelSeen_driven {x : Nat} (hd : drove s x = true) (he : s.envHigh.holds x = false) : levelSeen s x = .low := by
  simp [levelSeen, hd, he]

/-- While a symbol pulls low, the node itself sees a low. -/
theorem levelSeen_symbol {i : Instr} {n x : Nat} (hi : isSymbol i = true)
    (hl : symbolLows s.cfg s.now i = [⟨s.now, n⟩]) (he : exec i s = .next t) (h1 : s.now ≤ x) (h2 : x < s.now + n)
    (henv : s.envHigh.holds x = false) : levelSeen t x = .low := by
  rw [exec_symbol s hi, hl] at he
  cases he
  refine levelSeen_driven ?_ henv
  simp [drove, coversAny, Span.covers, h1, h2]

/-- On a bus whose nodes agree, what each node saw is the level of the line. -/
theorem Bus.AgreesBefore.levelSeen_eq {b : Bus} {h x : Nat} (hb : b.AgreesBefore h) (hx : x < h) (hs : s ∈ b.nodes) :
    levelSeen s x = b.lineAt x := by
  obtain ⟨pre, post, hnodes⟩ := List.append_of_mem hs
  obtain ⟨hhigh, hlow, hpeers⟩ := hb x hx pre s post hnodes
  have hany : (drove s x || (pre ++ post).any (drove · x)) = b.nodes.any (drove · x) := by
    rw [hnodes, List.any_append, List.any_append, List.any_cons, Bool.or_left_comm]
  rw [levelSeen, Bus.lineAt, hhigh, hlow, hpeers, hany]

/-! ## Who looks at the line -/

/-- The node with other inputs of the line. -/
def withLine (pl el eh : Signal) (s : State) : State := { s with peersLow := pl, envLow := el, envHigh := eh }

variable {pl el eh : Signal}

theorem beginTransmit_withLine (h : Byte) (p : List Byte) (s : State) :
    beginTransmit h p (withLine pl el eh s) = withLine pl el eh (beginTransmit h p s) := by
  have hcfg : (withLine pl el eh s).cfg = s.cfg := rfl
  have hsent : (withLine pl el eh s).preambleSent = s.preambleSent := rfl
  simp only [beginTransmit, hcfg, hsent]
  split <;> rfl

theorem afterSymbol_withLine (s : State) : afterSymbol (withLine pl el eh s) = withLine pl el eh (afterSymbol s) := by
  have hphase : (withLine pl el eh s).phase = s.phase := rfl
  have hfb : (withLine pl el eh s).fb = s.fb := rfl
  simp only [afterSymbol, hphase, hfb]
  repeat' split
  all_goals rfl

/-- No instruction looks at the line (spec/10_state.md R34; spec/20_memory.md R53). -/
theorem exec_withLine (i : Instr) (s : State) :
    exec i (withLine pl el eh s) = onNext (withLine pl el eh) (exec i s) := by
  have hcfg : (withLine pl el eh s).cfg = s.cfg := rfl
  have hinit : (withLine pl el eh s).initialized = s.initialized := rfl
  have hbusy : (withLine pl el eh s).busy = s.busy := rfl
  have hturn : (withLine pl el eh s).writeEnabled = s.writeEnabled := rfl
  have hsetup : (withLine pl el eh s).setupOk = s.setupOk := rfl
  have hreason (a : Addr) : discardReason a (withLine pl el eh s) = discardReason a s := rfl
  cases i with
  | cmdInit => simp only [exec, execCmdInit, hsetup]; split <;> rfl
  | cmdOpen mode =>
    simp only [exec, execCmdOpen, hcfg, hinit, hbusy]
    repeat' split
    all_goals rfl
  | cmdClose =>
    simp only [exec, execCmdClose, hcfg, hinit]
    repeat' split
    all_goals rfl
  | cmdRead maxLen => simp only [exec, execCmdRead, hinit]; split <;> rfl
  | cmdWrite addr dir len =>
    have hbegin (w : State) := beginTransmit_withLine (pl := pl) (el := el) (eh := eh) (txHeader s.cfg addr dir)
      (txPayload s len) w
    simp only [exec, execCmdWrite, hcfg, hinit, hturn]
    repeat' split
    · rfl
    · rfl
    · exact congrArg Host.Outcome.next (hbegin s)
    · rfl
    · exact congrArg Host.Outcome.next (hbegin (takeTurn s))
  | symSelect | symStart | symBit0 | symBit1 | symStop =>
    rw [exec_symbol s rfl, exec_symbol (withLine pl el eh s) rfl]; rfl
  | frameRdreq a =>
    simp only [exec, execFrameRdreq, hreason, turnGrant_eq]
    cases discardReason a s <;> rfl
  | frameData a =>
    simp only [exec, execFrameData, hreason]
    cases discardReason a s <;> rfl

theorem onNext_onNext (f g : State → State) (o : Host.Outcome State Fault Refusal) :
    onNext f (onNext g o) = onNext (f ∘ g) o := by
  cases o <;> rfl

/-- Outside READ the sequencer does not look at the line either. -/
theorem stepCore_withLine (h : ∀ p m, s.phase ≠ .receiving p m) :
    stepCore (withLine pl el eh s) = onNext (withLine pl el eh) (stepCore s) := by
  have symbol {i : Instr} (hi : isSymbol i = true) (hf : fetch s = .run i s)
      (hf' : fetch (withLine pl el eh s) = .run i (withLine pl el eh s)) :
      stepCore (withLine pl el eh s) = onNext (withLine pl el eh) (stepCore s) := by
    rw [stepCore_symbol hf hi, stepCore_symbol hf' hi, exec_withLine, onNext_onNext, onNext_onNext]
    exact congrArg (onNext · (exec i s)) (funext afterSymbol_withLine)
  cases hp : s.phase with
  | ready =>
    have hp' : (withLine pl el eh s).phase = .ready := hp
    have hi' : (withLine pl el eh s).inputs = s.inputs := rfl
    rcases hi : s.inputs with _ | ⟨input, rest⟩
    · simp only [stepCore, fetch_ready hp, fetch_ready hp', fetchReady, hi', hi]
      rfl
    · cases input with
      | wait | writeTx | pinSetup =>
        simp only [stepCore, fetch_ready hp, fetch_ready hp', fetchReady, hi', hi]
        rfl
      | issue w =>
        cases hd : decodeCmd w with
        | ok i =>
          have hsym := decodeCmd_not_symbol hd
          rw [stepCore_run (fetch_issue hp hi hd) hsym, stepCore_run (fetch_issue hp' (hi'.trans hi) hd) hsym]
          exact exec_withLine i (accept w rest s)
        | error e =>
          simp only [stepCore, fetch_reserved hp hi hd, fetch_reserved hp' (hi'.trans hi) hd, onNext_refused]
  | opening p => exact symbol (preambleSymbol_isSymbol p) (fetch_opening hp) (fetch_opening hp)
  | transmitting p => exact symbol (txSymbol_isSymbol s.fb p) (fetch_transmitting hp) (fetch_transmitting hp)
  | receiving p m => exact absurd hp (h p m)

/-- Nor does a hardware reset, before or during a step. -/
theorem step_withLine (h : ∀ p m, s.phase ≠ .receiving p m) :
    step (withLine pl el eh s) = onNext (withLine pl el eh) (step s) := by
  have hcore := stepCore_withLine (pl := pl) (el := el) (eh := eh) h
  have hcfg : (withLine pl el eh s).cfg = s.cfg := rfl
  have hresets : (withLine pl el eh s).resets = s.resets := rfl
  have hnow : (withLine pl el eh s).now = s.now := rfl
  cases hr : s.resets with
  | nil =>
    simp only [step, hcfg, hresets, hr, hcore]
    split <;> rfl
  | cons r rest =>
    have hcut (t : State) : (if r ≤ t.now then resetDuring r (withLine pl el eh s) (withLine pl el eh t)
        else withLine pl el eh t) = withLine pl el eh (if r ≤ t.now then resetDuring r s t else t) := by
      split <;> rfl
    simp only [step, hcfg, hresets, hnow, hr, hcore]
    split
    · split
      · rfl
      · rw [onNext_onNext, onNext_onNext]
        exact congrArg (onNext · (stepCore s)) (funext hcut)
    · rfl

end Sys2Proof.Machine

namespace Sys2Proof

open Machine Claims

/-- Settles O42: the moves of the sequencer only add to the record, and a hardware reset takes away only what was to come. -/
theorem thePastIsFixed : Obligations.ThePastIsFixed := by
  intro s t hl h
  rcases step_eq_next_cases h with
    ⟨-, hu⟩ | ⟨r, rest, -, -, rfl⟩ | ⟨r, rest, u, -, hr, hu, ⟨-, rfl⟩ | ⟨-, rfl⟩⟩
  · have hf := moves_forward (stepCore_moves hu)
    exact ⟨hf.now, fun x => hf.drove_eq⟩
  · exact ⟨Nat.le_refl _, fun _ _ => rfl⟩
  · refine ⟨Nat.le_of_lt hr, fun x hx => ?_⟩
    rw [← (moves_forward (stepCore_moves hu)).drove_eq hx, Bool.eq_iff_iff, drove_resetDuring]
    exact and_iff_right (Nat.lt_trans hx hr)
  · have hf := moves_forward (stepCore_moves hu)
    exact ⟨hf.now, fun x => hf.drove_eq⟩

/-- Settles O35: a reset that is due, one that the step reaches, and one that it does not. -/
theorem hardwareResetEndsEverything : Obligations.HardwareResetEndsEverything := by
  intro s u r rest hc hr hl
  refine ⟨?reset, fun hur hu hnow => ?later⟩
  case reset =>
    rintro (⟨hdue, rfl⟩ | ⟨hsr, hru, hu⟩)
    · refine ⟨_, step_resetDue hc hr hdue, rfl, rfl, rfl, rfl, rfl, rfl, rfl, rfl, by simp [hr], by simp [hdue], rfl,
        fun x => ⟨fun hx => ⟨?_, hx⟩, fun hx => hx.2⟩⟩
      refine Nat.lt_of_not_le fun hle => ?_
      have hnone : drove u x = false := coversAny_after hl hle
      rw [show drove (hardReset u) x = drove u x from rfl, hnone] at hx
      cases hx
    · refine ⟨resetDuring r s u, by rw [step_resetNotDue hc hr hsr hu, if_pos hru], rfl, rfl, rfl, rfl, rfl, rfl, rfl, rfl,
        by simp [resetDuring, hr], ?_, rfl, fun x => drove_resetDuring⟩
      exact (Nat.max_eq_right (Nat.le_of_lt hsr)).symm
  case later =>
    rw [step_resetNotDue hc hr (Nat.lt_of_le_of_lt hnow hur) hu, if_neg (Nat.not_le.mpr hur)]

/-- Settles O43: every instruction that is no symbol, and every step of a node that is `Ready` or in READ, is quiet. -/
theorem onlySymbolsDriveTheLine : Obligations.OnlySymbolsDriveTheLine := by
  refine ⟨fun i s t he => ?_, fun s t hs hp h => ?_⟩
  · cases i with
    | symSelect | symStart | symBit0 | symBit1 | symStop =>
      rw [exec_symbol s rfl] at he
      cases he
      simp [outAfter]
    | cmdInit | cmdOpen | cmdClose | cmdRead | cmdWrite | frameRdreq | frameData =>
      obtain ⟨hq, hnow⟩ := exec_quiet rfl he
      exact ⟨fun h => (h.elim (absurd hq.lows) (absurd hnow)), fun ho => .inl (hq.out ho)⟩
  · have hq := moves_quiet (stepCore_moves (step_plain hs ▸ h)) hp
    exact ⟨hq.lows, hq.out⟩

/-- Settles O44: what a node samples is what is on its record and was given to it, and on a bus these agree. -/
theorem allNodesSeeOneLine : Obligations.AllNodesSeeOneLine := by
  have sampled {s u : State} {p : RxPos} {m x : Nat} (hinv : NodeInv s) (hs : plain s) (hp : s.phase = .receiving p m)
      (h : step s = .next u) (hx : s.now ≤ x) : lineAt s x = levelSeen u x :=
    lineAt_eq_levelSeen (moves_quiet (stepCore_moves (step_plain hs ▸ h)) (.inr ⟨p, m, hp⟩)) (hinv.out_of hp)
      hinv.lowsPast hx
  refine ⟨fun s u p m x hinv hs hp h hx _ => sampled hinv hs hp h hx, ?symbol,
    fun b h x u hb hx hu => hb.levelSeen_eq hx hu,
    fun b h x s u p m hb hx hu hinv hs hp hstep hnow _ => (sampled hinv hs hp hstep hnow).trans (hb.levelSeen_eq hx hu)⟩
  rintro i s u x (rfl | rfl | rfl | rfl) he h1 h2 henv
  · exact levelSeen_symbol rfl rfl he h1 (by omega) henv
  · exact levelSeen_symbol rfl rfl he h1 h2 henv
  · exact levelSeen_symbol rfl rfl he h1 h2 henv
  · exact levelSeen_symbol rfl rfl he h1 h2 henv

/-- Settles O41: outside READ neither the sequencer nor an instruction looks at the line, and no hardware reset does. -/
theorem onlyReadObservesTheLine : Obligations.OnlyReadObservesTheLine :=
  fun _ _ _ _ h => step_withLine h

end Sys2Proof
end

