-- ==== Sys2Proof/Proofs/Endless.lean ====
section
/-! SUPPORT and PROOF. A line on which READ never ends (spec/70_reset_and_hazards.md R221; spec/42_frame_transport.md R152):
low in one tick of every `T_TIMEOUT`, so that no wait expires and no low is long enough to be a select condition. -/

namespace Sys2Proof.Machine

open Claims

/-- Low for one tick in every `n`, for ever. -/
def blips (n : Nat) : Signal := ⟨[⟨0, 1, n⟩], none⟩

/-- The node searches, or has just found a low, on the line of blips. -/
structure Searching (c : NodeConfig) (m : Nat) (s : State) : Prop where
  cfg : s.cfg = c
  resets : s.resets = []
  line : ∀ t, lineAt s t = .low ↔ t % c.tTimeout = 0
  phase : s.phase = .receiving .seekLow m ∨ (s.phase = .receiving (.seekRise s.now) m ∧ lineAt s s.now = .low)

/-- A node in the start search whose other nodes pull the line low for one tick in every `T_TIMEOUT`. -/
def blipReader (c : NodeConfig) (m : Nat) : State :=
  { State.resetOf c with phase := .receiving .seekLow m, peersLow := blips c.tTimeout }

theorem lineAt_blipReader (c : NodeConfig) (m t : Nat) :
    lineAt (blipReader c m) t = .low ↔ t % c.tTimeout = 0 := by
  simp [lineAt, blipReader, State.resetOf, blips, Signal.holds, Pulse.covers, Signal.quiet]

theorem searching_blipReader (c : NodeConfig) (m : Nat) : Searching c m (blipReader c m) :=
  ⟨rfl, rfl, lineAt_blipReader c m, .inl rfl⟩

/-- In every `n` ticks there is a multiple of `n`. -/
theorem exists_multiple {n : Nat} (hn : 0 < n) (x : Nat) : ∃ y, x ≤ y ∧ y < x + n ∧ y % n = 0 := by
  have hmod := Nat.mod_lt (x + (n - 1)) hn
  have hdiv := Nat.div_add_mod (x + (n - 1)) n
  exact ⟨n * ((x + (n - 1)) / n), by omega, by omega, Nat.mul_mod_right _ _⟩

variable {c : NodeConfig} {m : Nat} {s : State}

theorem Searching.high (h : Searching c m s) {t : Nat} (ht : t % c.tTimeout ≠ 0) : lineAt s t = .high :=
  (level_low_or_high _).resolve_left fun hl => ht ((h.line t).mp hl)

/-- A low is over in the next tick. -/
theorem Searching.rise (h : Searching c m s) (hc : 2 ≤ c.tTimeout) {t : Nat} (hl : lineAt s t = .low) :
    lineAt s (t + 1) = .high := by
  refine h.high fun hz => ?_
  have hmod := (h.line t).mp hl
  rw [Nat.add_mod, hmod, Nat.zero_add, Nat.mod_mod, Nat.mod_eq_of_lt hc] at hz
  cases hz

/-- The search finds a low within `T_TIMEOUT` ticks, finds it too short, and goes on. -/
theorem Searching.step (hc : legalConfig c) (h : Searching c m s) : ∃ t, step s = .next t ∧ Searching c m t := by
  obtain ⟨hcfg, hresets, hline, hphase⟩ := h
  have hs : plain s := ⟨hcfg ▸ hc, hresets⟩
  obtain ⟨hbp, htime, hmin, -⟩ := hc
  rcases hphase with hp | ⟨hp, hlow⟩
  · cases hw : waitUntil s .low s.cfg.tTimeout with
    | found a =>
      have hstep := step_seekLow hs hp
      rw [rxSeekLow_found hw] at hstep
      exact ⟨_, hstep, hcfg, hresets, hline, .inr ⟨rfl, (waitUntil_found hw).2.2.1⟩⟩
    | expired e =>
      obtain ⟨y, h1, h2, hy⟩ := exists_multiple (n := c.tTimeout) (by omega) s.now
      exact absurd ((hline y).mpr hy) ((waitUntil_expired hw).2 y h1 (hcfg.symm ▸ h2))
  · have hrise : lineAt s (s.now + 1) = .high := Searching.rise ⟨hcfg, hresets, hline, .inr ⟨hp, hlow⟩⟩ (by omega) hlow
    have hfound := waitUntil_rise (s := s) (limit := s.cfg.tTimeout) (Nat.le_add_right s.now 1)
      (by rw [hcfg]; omega) (fun x h1 h2 => by rwa [show x = s.now by omega]) hrise
    have hshort : ¬ isSelect s.cfg (s.now + 1 - s.now) := by
      have hpos : 13 * 1 ≤ s.cfg.selectMinX10 * s.cfg.bitPeriod := Nat.mul_le_mul (by rw [hcfg]; omega) (by rw [hcfg]; omega)
      unfold isSelect
      omega
    have hstep := step_seekRise_found hs hp hfound
    rw [if_neg hshort] at hstep
    exact ⟨_, hstep, hcfg, hresets, hline, .inl rfl⟩

/-- So READ is still searching after every number of steps. -/
theorem Searching.run (hc : legalConfig c) (h : Searching c m s) (k : Nat) : ∃ t, run k s = .next t ∧ Searching c m t := by
  induction k generalizing s with
  | zero => exact ⟨s, rfl, h⟩
  | succ k ih =>
    obtain ⟨u, hu, hsearch⟩ := h.step hc
    obtain ⟨t, ht, hsearch⟩ := ih hsearch
    exact ⟨t, (run_succ k hu).trans ht, hsearch⟩

end Sys2Proof.Machine

namespace Sys2Proof

open Machine Claims

/-- Settles O21: the line that is low in one tick of every `T_TIMEOUT` keeps READ searching. -/
theorem readNeedNotEnd : Obligations.ReadNeedNotEnd := by
  intro c m hc
  have hsearch := searching_blipReader c m
  have htime : 2 ≤ c.tTimeout := by
    obtain ⟨hbp, htime, -⟩ := hc
    omega
  refine ⟨blipReader c m, rfl, ⟨hc, rfl⟩, rfl, fun v x => ?bothLevels, fun k => ?forEver⟩
  case bothLevels =>
    obtain ⟨y, h1, h2, hy⟩ := exists_multiple (n := c.tTimeout) (by omega) x
    cases v with
    | low => exact ⟨y, h1, h2, (hsearch.line y).mpr hy⟩
    | high =>
      by_cases hx : x % c.tTimeout = 0
      · exact ⟨x + 1, by omega, by omega, hsearch.rise htime ((hsearch.line x).mpr hx)⟩
      · exact ⟨x, by omega, by omega, hsearch.high hx⟩
  case forEver =>
    obtain ⟨t, ht, hsearch⟩ := hsearch.run hc k
    exact ⟨t, ht, hsearch.phase.elim (fun hp => ⟨_, hp⟩) (fun hp => ⟨_, hp.1⟩)⟩

end Sys2Proof
end
